-- ==== Sys2Proof/Word.lean ====
section
/-!
DEFINITION. The two word types of the machine (00_scope.md R6, R7). Arithmetic on them is `BitVec`'s: it wraps
at the width (R8), and every value is unsigned.
-/

namespace Sys2Proof

/-- A data byte: the width of A, X, Y, SP and of a memory cell. Bit 0 is the least significant (R7). -/
abbrev Byte := BitVec 8

/-- A 16-bit word: the width of PC and of a memory address. -/
abbrev Word := BitVec 16

end Sys2Proof
end

