-- ==== Sys2Proof/Machine/Bits.lean ====
section
/-!
DEFINITION. The bit-field, extension and byte-order helpers of 00_scope.md R7, R8.
-/

namespace Sys2Proof

/-- `lo8(w) = w[7:0]` (R7). -/
def lo8 (w : Word) : Byte := w.extractLsb' 0 8

/-- `hi8(w) = w[15:8]` (R7). -/
def hi8 (w : Word) : Byte := w.extractLsb' 8 8

/-- `(h << 8) | l`: byte `h` in bits 15..8, byte `l` in bits 7..0 (R7). -/
def mkWord (h l : Byte) : Word := h ++ l

/-- `zext16(b)` (R8). -/
def zext16 (b : Byte) : Word := b.setWidth 16

end Sys2Proof
end

