-- ==== Sys2Proof/Syntax.lean ====
section
/-!
DEFINITION. The instruction set: one constructor per row of spec/opcode_table.json (00_scope.md R2). The operand
is what the instruction's operand bytes assemble to (30_encoding.md R62).
-/

namespace Sys2Proof

/-- The four instructions of 30_encoding.md R63. -/
inductive Instr where
  /-- LDA Immediate, `A9 imm8` (41_load_accumulator.md R110). -/
  | ldaImm (imm8 : Byte)
  /-- LDA Zero Page, `A5 zp` (R111). -/
  | ldaZp (zp : Byte)
  /-- LDA Zero Page,X, `B5 zp` (R112). -/
  | ldaZpx (zp : Byte)
  /-- JSR Absolute, `20 lo hi` (42_subroutine.md R130). -/
  | jsr (target : Word)
  deriving DecidableEq, Repr

end Sys2Proof
end

