-- ==== Sys2Proof/WellFormed.lean ====
section
/-!
DEFINITION. Well-formedness, of an instruction as syntax and of an instruction's bytes.
-/

namespace Sys2Proof

/-- Every operand value is legal (30_encoding.md R66), and an operand's type fixes its width (R62), so no `Instr`
is ill-formed. The match names every constructor, so that a new one must say its own check. Log 16. -/
def Instr.wf : Instr → Bool
  | .ldaImm _ => true
  | .ldaZp _ => true
  | .ldaZpx _ => true
  | .jsr _ => true

/-- Are these bytes one whole instruction and nothing more? The formats of 30_encoding.md R60 with the opcode
bytes of R63, read from the tables on their own, not through the decoder. -/
def encodingWf : List Byte → Bool
  | [op, _] => op == 0xA9#8 || op == 0xA5#8 || op == 0xB5#8
  | [op, _, _] => op == 0x20#8
  | _ => false

end Sys2Proof
end

