-- ==== Sys2Proof/Decode.lean ====
section
/-!
DEFINITION. The decoder, total on any bytes, and after it the encoder. Both are written from the opcode map
(30_encoding.md R63, 40_engine.md R91) and the formats (30_encoding.md R60, R62).
-/

namespace Sys2Proof

/-- LDA Immediate's opcode byte (30_encoding.md R63). -/
def opcodeLdaImm : Byte := 0xA9
/-- LDA Zero Page's opcode byte (R63). -/
def opcodeLdaZp : Byte := 0xA5
/-- LDA Zero Page,X's opcode byte: the named constant R63 asks for. PRESUMED (92_eei_decisions.md D11), log 7. -/
def opcodeLdaZpx : Byte := 0xB5
/-- JSR Absolute's opcode byte (R63). -/
def opcodeJsr : Byte := 0x20

/-- The handlers an opcode byte selects (40_engine.md R91; 00_scope.md, "Handler"). -/
inductive Handler where
  | ldaImm
  | ldaZp
  | ldaZpx
  | jsrAbs
  deriving DecidableEq, Repr

/-- The decoder of 40_engine.md R91, "a total function from the fetched opcode byte to a handler"; `none` is
UNRECOGNIZED. The byte is decoded whole (30_encoding.md R61). -/
def decodeOpcode (op : Byte) : Option Handler :=
  if op = opcodeLdaImm then some .ldaImm
  else if op = opcodeLdaZp then some .ldaZp
  else if op = opcodeLdaZpx then some .ldaZpx
  else if op = opcodeJsr then some .jsrAbs
  else none

/-- Why bytes decode to no instruction. -/
inductive DecodeError where
  /-- The opcode byte has no handler (30_encoding.md R65). -/
  | unrecognized (opcode : Byte)
  /-- The list of bytes ends before the instruction does. The machine itself never meets this: its fetch wraps at
  the top of memory and always finds a byte (10_state.md R26). -/
  | truncated
  deriving DecidableEq, Repr

/-- The operand bytes of a handler's format assembled (30_encoding.md R60, R62), with the bytes after them. -/
def assemble : Handler → List Byte → Except DecodeError (Instr × List Byte)
  | .ldaImm, imm8 :: rest => .ok (.ldaImm imm8, rest)
  | .ldaZp, zp :: rest => .ok (.ldaZp zp, rest)
  | .ldaZpx, zp :: rest => .ok (.ldaZpx zp, rest)
  | .jsrAbs, lo :: hi :: rest => .ok (.jsr (mkWord hi lo), rest)
  | _, _ => .error .truncated

/-- The instruction at the head of a list of bytes, with the bytes after it. -/
def decode : List Byte → Except DecodeError (Instr × List Byte)
  | [] => .error .truncated
  | op :: rest =>
    match decodeOpcode op with
    | some h => assemble h rest
    | none => .error (.unrecognized op)

/-- The bytes of an instruction, from the encodings of 30_encoding.md R60, R63. -/
def encode : Instr → List Byte
  | .ldaImm imm8 => [opcodeLdaImm, imm8]
  | .ldaZp zp => [opcodeLdaZp, zp]
  | .ldaZpx zp => [opcodeLdaZpx, zp]
  | .jsr target => [opcodeJsr, lo8 target, hi8 target]

/-- The three bytes (the longest instruction's) of an opcode-table word: byte 0 is bits 7..0 of `w`, and every bit
from `nbits` up is 0. -/
def tableBytes (nbits w : Nat) : List Byte :=
  let v := w % 2 ^ nbits
  [BitVec.ofNat 8 v, BitVec.ofNat 8 (v / 256), BitVec.ofNat 8 (v / 65536)]

/-- The instruction the decoder reads from an opcode-table word. -/
def decodeTableWord (nbits w : Nat) : Option Instr :=
  match decode (tableBytes nbits w) with
  | .ok (i, _) => some i
  | .error _ => none

end Sys2Proof
end

