-- ==== Sys2Proof/Config.lean ====
section
/-!
DEFINITION. The two configuration fields a model of this hardware takes (00_scope.md R6; 92_eei_decisions.md D2,
D3). Every other parameter is fixed. The spec leaves no instruction result open, so there is no free value
(93_implementation_defined.md section 1).
-/

namespace Sys2Proof

/-- The stack convention of JSR (92_eei_decisions.md D3). -/
inductive JsrStack where
  /-- A descending stack in page 1, post-write decrement (42_subroutine.md R131). -/
  | descending
  /-- SP is a bare address and is left unchanged (42_subroutine.md R132). -/
  | legacy
  deriving DecidableEq, Repr

/-- `RESET_SP` and `JSR_STACK` of 00_scope.md R6. -/
structure Config where
  resetSp  : Byte
  jsrStack : JsrStack
  deriving DecidableEq, Repr

/-- The defaults of 00_scope.md R6: `RESET_SP` = 0xFF, `JSR_STACK` = `DESCENDING`. DESIGN CHOICE of the spec, log 1. -/
def Config.default : Config := { resetSp := 0xFF, jsrStack := .descending }

end Sys2Proof
end

