-- ==== Sys2Proof/Machine/Memory.lean ====
section
/-!
DEFINITION. The memory of 20_memory.md R40 as plain data: a list of (address, byte) pairs in one canonical form.
An unlisted address reads as 0x00, the reset contents of R43. Log 12.
-/

namespace Sys2Proof.Machine

/-- One past the last address (20_memory.md R40). -/
def memSize : Nat := 65536

/-- What an address that is not listed reads as: `MemInit` "sets every byte to 0" (20_memory.md R43). -/
def unlistedByte : Byte := 0x00

abbrev Memory := List Host.Cell

/-- The canonical form: addresses strictly rise and exist, and no cell holds what an unlisted address reads as. -/
abbrev Memory.wf (m : Memory) : Prop :=
  m.Pairwise (fun c d => c.1 < d.1) ∧ ∀ c ∈ m, c.1 < memSize ∧ c.2 ≠ unlistedByte

/-- Every byte 0x00 (20_memory.md R43). -/
def Memory.zero : Memory := []

/-- The byte at an address. -/
def Memory.get : Memory → Nat → Byte
  | [], _ => unlistedByte
  | c :: rest, a => if c.1 = a then c.2 else Memory.get rest a

/-- A cell put in at its place in the rising order. -/
def Memory.insertCell (a : Nat) (v : Byte) : Memory → Memory
  | [] => [(a, v)]
  | c :: rest => if a < c.1 then (a, v) :: c :: rest else c :: Memory.insertCell a v rest

/-- The memory with address `a` unlisted. -/
def Memory.unlist (m : Memory) (a : Nat) : Memory := m.filter (fun c => c.1 ≠ a)

/-- The memory with byte `v` at address `a` and every other address as before (20_memory.md R42). -/
def Memory.set (m : Memory) (a : Nat) (v : Byte) : Memory :=
  if v = unlistedByte then m.unlist a else Memory.insertCell a v (m.unlist a)

end Sys2Proof.Machine
end

