-- ==== Sys2Proof/Machine/State.lean ====
section
/-!
DEFINITION. The state of the machine as plain data: everything 10_state.md gives it, the configuration it runs
under, and the host, the machine's second agent (00_scope.md R11).
-/

namespace Sys2Proof.Machine

/-- The seven status flags, "each flag is an independent bit" (10_state.md R27). There is no packed status byte. -/
structure Flags where
  /-- Carry -/
  c : Bool
  /-- Zero -/
  z : Bool
  /-- InterruptDisable -/
  i : Bool
  /-- Decimal -/
  d : Bool
  /-- Break -/
  b : Bool
  /-- Overflow -/
  v : Bool
  /-- Negative -/
  n : Bool
  deriving DecidableEq, Repr

/-- Every flag 0 (70_reset_and_hazards.md R180). -/
def Flags.clear : Flags := ⟨false, false, false, false, false, false, false⟩

/-- The names of the flags, for the host's accesses (10_state.md R34). -/
inductive Flag where
  | c | z | i | d | b | v | n
  deriving DecidableEq, Repr

/-- The names of the 8-bit registers, for the host's accesses (10_state.md R34). -/
inductive Reg where
  | a | x | y | sp
  deriving DecidableEq, Repr

/-- The two faults of the error taxonomy (60_exceptions.md R150). Both are the spec's. -/
inductive Fault where
  /-- Raised by the execute loop when the opcode byte has no handler (60_exceptions.md R151): the byte, and the
  address it was fetched from. `step` answers it when the CORE is halted on it and the host asks for nothing
  (40_engine.md R102). Safe: nothing past the fault can be proved to run. Log 5. -/
  | unrecognizedInstruction (opcode : Byte) (addr : Word)
  /-- Returned to the host by a memory access at an address that does not exist (60_exceptions.md R153). No CORE
  instruction reaches it (20_memory.md R46) and `step` never answers it: the host gets it as the result of its
  call. Safe. Log 14. -/
  | outOfRange (addr : Nat)
  deriving DecidableEq, Repr

/-- Why the model gives a state no step. -/
inductive Refusal where
  /-- The instruction has no meaning yet. No arm of `exec` answers it: every instruction is modelled. Safe. -/
  | notModelled (mnemonic : String)
  /-- `execute`, or a read of a register or flag, before the first reset: "refused" (10_state.md R33,
  40_engine.md R98). Raised by the host interface. Safe. Log 9. -/
  | notInitialized
  /-- `execute` with a negative budget: "refused" (40_engine.md R98). Raised by the host interface. Safe. -/
  | negativeBudget
  deriving DecidableEq, Repr

/-- The host's commands (40_engine.md R101). -/
inductive Command where
  /-- 70_reset_and_hazards.md R180 -/
  | reset
  /-- 40_engine.md R92. The budget is an integer; a negative one is refused (R98). -/
  | execute (budget : Int)
  /-- Register and flag accesses (10_state.md R34). -/
  | readReg (r : Reg)
  | writeReg (r : Reg) (v : Byte)
  | readPc
  | writePc (w : Word)
  | readFlag (f : Flag)
  | writeFlag (f : Flag) (b : Bool)
  /-- Memory accesses (20_memory.md R41 to R44). The address may lie outside memory. -/
  | memRead (addr : Nat)
  | memWrite (addr : Nat) (v : Byte)
  | memWriteWord (addr : Nat) (w : Word)
  | memInit
  deriving DecidableEq, Repr

/-- What a command returns to the host. -/
inductive Result where
  /-- A command that returns no value has completed. -/
  | done
  | byte (v : Byte)
  | word (w : Word)
  | bit (b : Bool)
  /-- `Completed(consumed)` of 40_engine.md R95. -/
  | completed (consumed : Int)
  /-- `Faulted(fault, consumed)` of 40_engine.md R95. -/
  | faulted (f : Fault) (consumed : Int)
  /-- A memory access's error (60_exceptions.md R154). -/
  | error (f : Fault)
  deriving DecidableEq, Repr

/-- An `execute` call in progress: its budget and `cyc`, the remaining-cycle counter, which exists only inside the
call (10_state.md R30). Neither has a width (92_eei_decisions.md D5). Log 4. -/
structure Call where
  budget : Nat
  cyc    : Int
  deriving DecidableEq, Repr

structure State where
  /-- The configuration; nothing changes it. Log 1. -/
  cfg         : Config
  a           : Byte
  x           : Byte
  y           : Byte
  sp          : Byte
  pc          : Word
  flags       : Flags
  mem         : Memory
  /-- The `execute` call in progress, if any. -/
  call        : Option Call
  /-- The held fault (10_state.md R32). -/
  fault       : Option Fault
  /-- 0 from construction to the first reset (10_state.md R33). -/
  initialized : Bool
  /-- The MODEL's own: the commands the host will issue, oldest first. Read only between commands. Log 2. -/
  host        : List Command
  /-- The MODEL's own: what the last finished command returned; none while a command runs. Log 2. -/
  result      : Option Result
  deriving DecidableEq, Repr

/-- The state after reset under a configuration, with no command pending (70_reset_and_hazards.md R180). -/
def State.resetAt (cfg : Config) : State where
  cfg         := cfg
  a           := 0x00
  x           := 0x00
  y           := 0x00
  sp          := cfg.resetSp
  pc          := 0xFFFC
  flags       := Flags.clear
  mem         := Memory.zero
  call        := none
  fault       := none
  initialized := true
  host        := []
  result      := none

/-- The machine right after reset, under the spec's default configuration. -/
def State.reset : State := State.resetAt Config.default

/-- The machine as constructed, before its first reset: `initialized` is 0, so no register or flag can be read
and `execute` is refused (10_state.md R33). What the register fields hold is never seen. Memory holds any contents
(70_reset_and_hazards.md R183). Log 9. -/
def State.constructed (cfg : Config) (mem : Memory) : State :=
  { State.resetAt cfg with mem := mem, initialized := false }

end Sys2Proof.Machine
end

