-- ==== Sys2Proof/Machine/Ops.lean ====
section
/-!
DEFINITION. The shared operations over registers and memory: the setters, the memory contract (20_memory.md R41 to
R44), the cycle-charging primitives (40_engine.md R80 to R84), the end of an `execute` call, taking a fault
(60_exceptions.md R152) and reset, the only way back from one (R158).
-/

namespace Sys2Proof.Machine

/-! ### Setters -/

def State.setA (v : Byte) (s : State) : State := { s with a := v }
def State.setX (v : Byte) (s : State) : State := { s with x := v }
def State.setY (v : Byte) (s : State) : State := { s with y := v }
def State.setSp (v : Byte) (s : State) : State := { s with sp := v }
def State.setPc (w : Word) (s : State) : State := { s with pc := w }
def State.setFlags (f : Flags) (s : State) : State := { s with flags := f }
def State.setMem (m : Memory) (s : State) : State := { s with mem := m }
/-- The running command has finished and returned `r` to the host. -/
def State.returns (r : Result) (s : State) : State := { s with result := some r }

/-! ### The memory contract -/

/-- `MemRead(addr, 1)` (20_memory.md R41). -/
def memRead (m : Memory) (addr : Nat) : Except Fault Byte :=
  if memSize ≤ addr then .error (.outOfRange addr) else .ok (m.get addr)

/-- `MemWrite(addr, 1, v)` (20_memory.md R42). -/
def memWrite (m : Memory) (addr : Nat) (v : Byte) : Except Fault Memory :=
  if memSize ≤ addr then .error (.outOfRange addr) else .ok (m.set addr v)

/-- `MemWrite(addr, 2, w)` (20_memory.md R44): little-endian, and all or nothing (90_conflicts.md C5). -/
def memWriteWord (m : Memory) (addr : Nat) (w : Word) : Except Fault Memory :=
  if memSize ≤ addr then .error (.outOfRange addr)
  else if memSize ≤ addr + 1 then .error (.outOfRange (addr + 1))
  else .ok ((m.set addr (lo8 w)).set (addr + 1) (hi8 w))

/-! ### The CORE's cycle-charging primitives

A CORE address is a `Word`, so it exists, and these never raise OutOfRange (20_memory.md R46). -/

/-- The byte at a CORE address. -/
def State.byteAt (s : State) (addr : Word) : Byte := s.mem.get addr.toNat

/-- The `n` bytes from a CORE address on, wrapping at the top of memory (10_state.md R26). -/
def State.bytesFrom (s : State) (addr : Word) : Nat → List Byte
  | 0 => []
  | n + 1 => s.byteAt addr :: s.bytesFrom (addr + 1) n

/-- `cyc <- cyc - k` of the call in progress (00_scope.md R8). -/
def Call.charge (k : Nat) (c : Call) : Call := { c with cyc := c.cyc - k }

/-- `k` cycles charged to the `execute` call in progress. Outside a call there is no `cyc` to charge
(10_state.md R30). Log 4. -/
def State.charge (k : Nat) (s : State) : State := { s with call := s.call.map (Call.charge k) }

/-- `fetch_byte` (40_engine.md R80). PC wraps modulo 65536 (10_state.md R26; log 8). -/
def fetchByte (s : State) : Byte × State :=
  (s.byteAt s.pc, (s.setPc (s.pc + 1)).charge 1)

/-- `fetch_word`, low byte first (40_engine.md R81). -/
def fetchWord (s : State) : Word × State :=
  let (lo, s₁) := fetchByte s
  let (hi, s₂) := fetchByte s₁
  (mkWord hi lo, s₂)

/-- `read_byte(ea)` (40_engine.md R82). -/
def readByte (ea : Word) (s : State) : Byte × State := (s.byteAt ea, s.charge 1)

/-- `tick` (40_engine.md R83). -/
def tick (s : State) : State := s.charge 1

/-- `write_byte(addr, v)` (40_engine.md R84). One cycle a byte: log 10. -/
def writeByte (addr : Word) (v : Byte) (s : State) : State :=
  (s.setMem (s.mem.set addr.toNat v)).charge 1

/-! ### The end of an `execute` call, faults and reset -/

/-- `consumed = budget - cyc` (40_engine.md R95). -/
def Call.consumed (c : Call) : Int := c.budget - c.cyc

/-- The cycles the call in progress has consumed. -/
def State.consumed (s : State) : Int :=
  match s.call with
  | some c => c.consumed
  | none => 0

/-- The loop guard failed: `return Completed(budget - cyc)` (40_engine.md R92). -/
def returnCompleted (s : State) : State :=
  { s with call := none, result := some (.completed s.consumed) }

/-- TAKING A FAULT (40_engine.md R92, 60_exceptions.md R152): the fault is held and `execute` returns
`Faulted(fault, consumed)` at once. No handler, vector, stack or mode is involved (R157). -/
def takeFault (f : Fault) (s : State) : State :=
  { s with fault := some f, call := none, result := some (.faulted f s.consumed) }

/-- `reset()` (70_reset_and_hazards.md R180): the only way out of a held fault (60_exceptions.md R158), since there
is no return from a trap. The host's pending commands are not the machine's and stay. -/
def resetMachine (s : State) : State :=
  { State.resetAt s.cfg with host := s.host, result := s.result }

end Sys2Proof.Machine
end

