-- ==== Sys2Proof/Machine/Operands.lean ====
section
/-!
DEFINITION. The addressing-mode resolver (40_engine.md R86 to R89): the operand bytes of each handler, fetched with
the cycle-charging primitives, and the effective addresses. An instruction's operand bytes are fetched before
anything else it does; log 13.
-/

namespace Sys2Proof.Machine

/-- Immediate: "the fetched byte *is* the operand" (R86). -/
def operandImm (s : State) : Byte × State := fetchByte s

/-- The zero-page address byte of Zero Page and Zero Page,X (R87, R88). -/
def operandZp (s : State) : Byte × State := fetchByte s

/-- Absolute: a 16-bit address, never dereferenced (R89). -/
def operandAbs (s : State) : Word × State := fetchWord s

/-- A handler's operand, fetched from PC on, as an instruction (30_encoding.md R67). -/
def fetchOperand : Handler → State → Instr × State
  | .ldaImm, s => let (v, s₁) := operandImm s; (.ldaImm v, s₁)
  | .ldaZp, s => let (zp, s₁) := operandZp s; (.ldaZp zp, s₁)
  | .ldaZpx, s => let (zp, s₁) := operandZp s; (.ldaZpx zp, s₁)
  | .jsrAbs, s => let (w, s₁) := operandAbs s; (.jsr w, s₁)

/-- The effective address of Zero Page: `zext16(zp)` (R87). -/
def eaZp (zp : Byte) : Word := zext16 zp

/-- The effective address of Zero Page,X: `zext16((zp + X) mod 256)`, never outside page 0, at one cycle whether or
not the sum wraps (R88). -/
def eaZpx (zp : Byte) (s : State) : Word × State := (zext16 (zp + s.x), tick s)

end Sys2Proof.Machine
end

