-- ==== Sys2Proof/Machine/Jsr.lean ====
section
/-!
DEFINITION. Subroutine linkage (42_subroutine.md R130 to R134).
-/

namespace Sys2Proof.Machine

/-- The stack page's byte for a stack pointer: `0x0100 + zext16(SP)` (R131). -/
def stackAddr (sp : Byte) : Word := 0x0100 + zext16 sp

/-- One byte pushed on the descending stack: written, then SP decremented modulo 256 (R131; 10_state.md R24; log 8). -/
def pushByte (v : Byte) (s : State) : State :=
  let s₁ := writeByte (stackAddr s.sp) v s
  s₁.setSp (s₁.sp - 1)

/-- `push_return(ret)` when `JSR_STACK` = `DESCENDING` (R131): the high byte first. Log 11. -/
def pushReturnDescending (ret : Word) (s : State) : State :=
  pushByte (lo8 ret) (pushByte (hi8 ret) s)

/-- `push_return(ret)` when `JSR_STACK` = `LEGACY` (R132): a little-endian word at SP, which stays. -/
def pushReturnLegacy (ret : Word) (s : State) : State :=
  writeByte (zext16 s.sp + 1) (hi8 ret) (writeByte (zext16 s.sp) (lo8 ret) s)

/-- `push_return(ret)` under the configured convention (92_eei_decisions.md D3). -/
def pushReturn (ret : Word) (s : State) : State :=
  match s.cfg.jsrStack with
  | .descending => pushReturnDescending ret s
  | .legacy => pushReturnLegacy ret s

/-- JSR Absolute (R130). PC is one past the instruction here, so `PC - 1` is the address of its last byte. -/
def execJsr (target : Word) (s : State) : Host.Outcome State Fault Refusal :=
  let ret := s.pc - 1
  .next ((tick (pushReturn ret s)).setPc target)

end Sys2Proof.Machine
end

