-- ==== Sys2Proof/Machine/Flags.lean ====
section
/-!
DEFINITION. The flag computation unit (40_engine.md R90) and the accesses to one flag by name (10_state.md R34).
-/

namespace Sys2Proof.Machine

/-- `setZN(v)`: Z and N from a byte, every other flag as before. N is the shift form `(v >> 7) & 1`
(40_engine.md R90; 90_conflicts.md C6). -/
def setZN (v : Byte) (f : Flags) : Flags := { f with z := v == 0, n := v.getLsbD 7 }

/-- The flag of a name. -/
def Flags.read (f : Flags) : Flag → Bool
  | .c => f.c
  | .z => f.z
  | .i => f.i
  | .d => f.d
  | .b => f.b
  | .v => f.v
  | .n => f.n

/-- The flags with the one of a name set to `e`, the others as before: "seven independent bits" (R27). -/
def Flags.write (f : Flags) (e : Bool) : Flag → Flags
  | .c => { f with c := e }
  | .z => { f with z := e }
  | .i => { f with i := e }
  | .d => { f with d := e }
  | .b => { f with b := e }
  | .v => { f with v := e }
  | .n => { f with n := e }

end Sys2Proof.Machine
end

