-- ==== Sys2Proof/Machine/Lda.lean ====
section
/-!
DEFINITION. The Load-Accumulator family (41_load_accumulator.md R110 to R113). Each meaning starts after the whole
instruction has been fetched, PC one past it and its bytes charged.
-/

namespace Sys2Proof.Machine

/-- `A <- v; setZN(A)`: "every LDA variant must invoke this exact flag recomputation after assignment". -/
def loadA (v : Byte) (s : State) : State :=
  let s₁ := s.setA v
  s₁.setFlags (setZN s₁.a s₁.flags)

/-- LDA Immediate (R110). -/
def execLdaImm (imm8 : Byte) (s : State) : Host.Outcome State Fault Refusal :=
  .next (loadA imm8 s)

/-- LDA Zero Page (R111). -/
def execLdaZp (zp : Byte) (s : State) : Host.Outcome State Fault Refusal :=
  let (v, s₁) := readByte (eaZp zp) s
  .next (loadA v s₁)

/-- LDA Zero Page,X (R112). -/
def execLdaZpx (zp : Byte) (s : State) : Host.Outcome State Fault Refusal :=
  let (ea, s₁) := eaZpx zp s
  let (v, s₂) := readByte ea s₁
  .next (loadA v s₂)

end Sys2Proof.Machine
end

