-- ==== Sys2Proof/Machine/Engine.lean ====
section
/-!
DEFINITION. The execute loop (40_engine.md R92, R93): its body, and the whole loop as one function.
-/

namespace Sys2Proof.Machine

/-- The loop's body: fetch an opcode byte, decode it, and either run its handler or take the fault (R92). No byte
beyond the opcode is fetched before it is decoded (30_encoding.md R67). -/
def loopBody (s : State) : Host.Outcome State Fault Refusal :=
  let fetchAddr := s.pc
  let (op, s₁) := fetchByte s
  match decodeOpcode op with
  | some h =>
    let (i, s₂) := fetchOperand h s₁
    exec i s₂
  | none => .next (takeFault (.unrecognizedInstruction op fetchAddr) s₁)

/-- `while cyc > 0`, then `return Completed` (R92), for at most `fuel` instructions; the loop also ends where its
body returned `Faulted`, which leaves no call in progress. Every instruction charges a cycle, so a fuel above the
budget is never used up. -/
def executeLoop : Nat → State → Host.Outcome State Fault Refusal
  | 0, s => .next s
  | fuel + 1, s =>
    match s.call with
    | none => .next s
    | some c =>
      if 0 < c.cyc then
        match loopBody s with
        | .next t => executeLoop fuel t
        | .fault f => .fault f
        | .refused r => .refused r
      else .next (returnCompleted s)

/-- `execute(budget)` up to its loop (R92, R98, R99): refused before the first reset and with a negative budget;
answered at once while a fault is held; else `cyc <- budget`. -/
def beginExecute (budget : Int) (s : State) : Host.Outcome State Fault Refusal :=
  if s.initialized then
    match budget with
    | .negSucc _ => .refused .negativeBudget
    | .ofNat b =>
      match s.fault with
      | some f => .next (s.returns (.faulted f 0))
      | none => .next { s with call := some { budget := b, cyc := b } }
  else .refused .notInitialized

/-- `execute(budget)` as one command that runs to completion (R92). `step` runs the same call one instruction at a
time. -/
def execute (budget : Int) (s : State) : Host.Outcome State Fault Refusal :=
  match beginExecute budget s with
  | .next t => executeLoop (budget.toNat + 1) t
  | .fault f => .fault f
  | .refused r => .refused r

end Sys2Proof.Machine
end

