-- ==== Sys2Proof/Machine/HostInterface.lean ====
section
/-!
DEFINITION. The host's commands (40_engine.md R101): register and flag accesses (10_state.md R34), memory accesses
(20_memory.md R41 to R44), reset and the start of `execute`.
-/

namespace Sys2Proof.Machine

/-- The 8-bit register of a name. -/
def State.readReg (s : State) : Reg → Byte
  | .a => s.a
  | .x => s.x
  | .y => s.y
  | .sp => s.sp

/-- The state with the 8-bit register of a name set; "any value of the register's width" (R34). -/
def State.writeReg (s : State) (v : Byte) : Reg → State
  | .a => s.setA v
  | .x => s.setX v
  | .y => s.setY v
  | .sp => s.setSp v

/-- A value read from a register or flag: before the first reset there is none, and the read is refused
(10_state.md R33; log 9). -/
def readReturns (r : Result) (s : State) : Host.Outcome State Fault Refusal :=
  if s.initialized then .next (s.returns r) else .refused .notInitialized

/-- A memory access that yields a memory: the new memory, or the error with memory unchanged (60_exceptions.md
R154; log 14). -/
def writeReturns (r : Except Fault Memory) (s : State) : Host.Outcome State Fault Refusal :=
  match r with
  | .ok m => .next ((s.setMem m).returns .done)
  | .error f => .next (s.returns (.error f))

/-- One command of the host. -/
def runCommand (c : Command) (s : State) : Host.Outcome State Fault Refusal :=
  match c with
  | .reset => .next ((resetMachine s).returns .done)
  | .execute budget => beginExecute budget s
  | .readReg r => readReturns (.byte (s.readReg r)) s
  | .writeReg r v => .next ((s.writeReg v r).returns .done)
  | .readPc => readReturns (.word s.pc) s
  | .writePc w => .next ((s.setPc w).returns .done)
  | .readFlag f => readReturns (.bit (s.flags.read f)) s
  | .writeFlag f e => .next ((s.setFlags (s.flags.write e f)).returns .done)
  | .memRead addr =>
    match memRead s.mem addr with
    | .ok v => .next (s.returns (.byte v))
    | .error f => .next (s.returns (.error f))
  | .memWrite addr v => writeReturns (memWrite s.mem addr v) s
  | .memWriteWord addr w => writeReturns (memWriteWord s.mem addr w) s
  | .memInit => .next ((s.setMem Memory.zero).returns .done)

/-- No command runs: the host's next command starts. With none pending the CORE is idle (60_exceptions.md R162; log
18), or, while a fault is held, halted on it (40_engine.md R99, R102; log 5). -/
def betweenCommands (s : State) : Host.Outcome State Fault Refusal :=
  match s.host with
  | c :: rest => runCommand c { s with host := rest, result := none }
  | [] =>
    match s.fault with
    | some f => .fault f
    | none => .next s

/-- Bytes laid into memory from an address on, wrapping at the top. -/
def storeBytes (addr : Word) : List Byte → Memory → Memory
  | [], m => m
  | v :: vs, m => storeBytes (addr + 1) vs (m.set addr.toNat v)

/-- An `execute` call whose loop guard lets an instruction start: the one in progress, or a new one of budget 1. -/
def runningCall : Option Call → Call
  | some c => if 0 < c.cyc then c else { budget := 1, cyc := 1 }
  | none => { budget := 1, cyc := 1 }

end Sys2Proof.Machine
end

