-- ==== Sys2Proof/Machine/Step.lean ====
section
/-!
DEFINITION. One step of the machine, and the placing of one instruction for the next step. Log 3.
-/

namespace Sys2Proof.Machine

/-- One step. Inside an `execute` call: the loop guard, and then either one whole instruction or the return
(40_engine.md R92). Between commands: the host's next command. -/
def step (s : State) : Host.Outcome State Fault Refusal :=
  match s.call with
  | some c => if 0 < c.cyc then loopBody s else .next (returnCompleted s)
  | none => betweenCommands s

/-- `s` with an opcode-table word's bytes stored at PC, inside an `execute` call that lets an instruction start.
It stands for the host's load of a program and its `execute` (70_reset_and_hazards.md R184). DESIGN CHOICE, log 6. -/
def State.withFetchWord (s : State) (nbits w : Nat) : State :=
  { s with
    mem  := storeBytes s.pc (tableBytes nbits w) s.mem
    call := some (runningCall s.call) }

end Sys2Proof.Machine
end

