-- ==== Sys2Proof/Safety.lean ====
section
/-!
DEFINITION. Runs, what makes one safe, and the invariant of the machine, in the terms the statements use.
-/

namespace Sys2Proof.Machine

/-- `k` steps of the machine. -/
def run (k : Nat) (s : State) : Host.Outcome State Fault Refusal := Sys2Proof.core.run k s

/-- No `Faulted` outcome in the first `k` steps from `s`, the premise a claim about a program takes
(40_engine.md R102): each of them answers a next state, and none leaves a held fault. -/
def FaultFree (k : Nat) (s : State) : Prop :=
  ∀ j ≤ k, ∃ t, run j s = .next t ∧ t.fault = none

/-- `s` is inside an `execute` call whose loop guard lets an instruction start (40_engine.md R93). -/
abbrev State.Starts (s : State) (c : Call) : Prop := s.call = some c ∧ 0 < c.cyc

/-- `s` is between commands, and the host's next command is `cmd`. -/
abbrev State.Issues (s : State) (cmd : Command) (rest : List Command) : Prop :=
  s.call = none ∧ s.host = cmd :: rest

/-- The flags of an LDA that loads `v`: Z and N from it, the others as before (40_engine.md R90). N is written by its
meaning, 1 exactly when `v ≥ 0x80`, and not through the bit `setZN` takes. -/
abbrev Flags.loaded (f : Flags) (v : Byte) : Flags :=
  { f with z := decide (v = 0), n := decide (128 ≤ v.toNat) }

/-- A fault that can be held: `UnrecognizedInstruction` of a byte without a handler (10_state.md R32). -/
def Fault.holdable : Fault → Bool
  | .unrecognizedInstruction op _ => (decodeOpcode op).isNone
  | .outOfRange _ => false

/-- What holds of an `execute` call in progress: the machine has been reset, holds no fault and has answered nothing
yet, and the counter lies between -5 and the budget (40_engine.md R92, R94, R98, R99). -/
abbrev State.callOk (s : State) (c : Call) : Prop :=
  s.initialized = true ∧ s.fault = none ∧ s.result = none ∧ -5 ≤ c.cyc ∧ c.cyc ≤ c.budget

/-- The invariant of the machine: memory is in its canonical form, a call in progress is as `callOk` says, and a
held fault is one that can be held. -/
abbrev State.Inv (s : State) : Prop :=
  s.mem.wf ∧ (∀ c ∈ s.call, s.callOk c) ∧ ∀ f ∈ s.fault, f.holdable = true

end Sys2Proof.Machine
end

