-- ==== Sys2Proof/Certificates/Slice0/Obligations.lean ====
section
/-!
DEFINITION. The statements for the provers, from the spec's numbered rules.
-/

open Sys2Proof Sys2Proof.Machine

/-! ### Encoding -/

/-- The example bytes of 30_encoding.md R68 decode to the instructions they stand for. The clause for `B5 80` rests on
the opcode byte 0xB5, which is presumed (92_eei_decisions.md D11; log 7). -/
def Obligations.ExampleWordsDecode : Prop :=
  decode [0xA9, 0x42] = .ok (.ldaImm 0x42, []) ∧
  decode [0xA5, 0x42] = .ok (.ldaZp 0x42, []) ∧
  decode [0xB5, 0x80] = .ok (.ldaZpx 0x80, []) ∧
  decode [0x20, 0x00, 0x80] = .ok (.jsr 0x8000, [])

/-- Decoding an encoded instruction gives it back, whatever bytes follow it, for every instruction and operand
(30_encoding.md R60, R62, R63; R66: every operand value is legal, so none is excluded). -/
def Obligations.DecodeInvertsEncode : Prop :=
  ∀ (i : Instr) (rest : List Byte), decode (encode i ++ rest) = .ok (i, rest)

/-- What decodes is the encoding of what it decodes to: each byte sequence has one meaning (30_encoding.md R60 to
R63). -/
def Obligations.EncodeInvertsDecode : Prop :=
  ∀ (bytes : List Byte) (i : Instr) (rest : List Byte), decode bytes = .ok (i, rest) → bytes = encode i ++ rest

/-- The byte sequences that decode with nothing left over are exactly those of the forms of 30_encoding.md R60, R63.
That `B5 zp` is one of them rests on the opcode byte 0xB5, which is presumed (92_eei_decisions.md D11; log 7). -/
def Obligations.WholeInstructionsHaveTheTablesForms : Prop :=
  ∀ bytes : List Byte, encodingWf bytes = true ↔ ∃ i, decode bytes = .ok (i, [])

/-- An opcode byte is rejected by name exactly when it is none of the four, whatever bytes follow (30_encoding.md
R65, 40_engine.md R91). That 0xB5 is one of the four is presumed (92_eei_decisions.md D11; log 7). -/
def Obligations.RejectedOpcodesAreAllButFour : Prop :=
  ∀ (op : Byte) (rest : List Byte),
    decode (op :: rest) = .error (.unrecognized op) ↔ op ∉ [0xA9#8, 0xA5#8, 0xB5#8, 0x20#8]

/-- Every word of every row of the opcode table decodes to the row's instruction with its operand bytes. The row of
LDA Zero Page,X has the opcode byte 0xB5, which is presumed (92_eei_decisions.md D11; log 7). -/
def Obligations.TableRowsDecode : Prop :=
  ∀ lo hi : Byte,
    decodeTableWord 16 (0xA9 + 256 * lo.toNat) = some (.ldaImm lo) ∧
    decodeTableWord 16 (0xA5 + 256 * lo.toNat) = some (.ldaZp lo) ∧
    decodeTableWord 16 (0xB5 + 256 * lo.toNat) = some (.ldaZpx lo) ∧
    decodeTableWord 24 (0x20 + 256 * lo.toNat + 65536 * hi.toNat) =
      some (.jsr (BitVec.ofNat 16 (256 * hi.toNat + lo.toNat)))

/-! ### The execute loop -/

/-- A STEP RUNS THE DECODED INSTRUCTION. Inside a call whose guard lets an instruction start, if the bytes at PC
decode to `i`, the step is `exec i` of the state with PC moved past the instruction's bytes and one cycle charged
for each of them (40_engine.md R80, R92; 30_encoding.md R67). That all operand bytes are fetched before the meaning
runs is read from the rules by inference (log 13); that PC wraps is a decision of the spec (92_eei_decisions.md D4;
log 8). -/
def Obligations.StepRunsDecodedInstruction : Prop :=
  ∀ (s : State) (c : Call) (i : Instr) (rest : List Byte),
    s.Starts c → decode (s.bytesFrom s.pc 3) = .ok (i, rest) →
    step s = exec i { s with
      pc := s.pc + BitVec.ofNat 16 (encode i).length,
      call := some { c with cyc := c.cyc - (encode i).length } }

/-- An opcode byte that is none of the four leaves PC one past it, the fault held with the byte and its address, and
the call returned with one more cycle consumed; nothing else changes (60_exceptions.md R151, R152). That the CORE
halts so, and the PC and cycle it leaves, are a decision of the spec (92_eei_decisions.md D7; log 5), as is the wrap
of PC (D4; log 8); that 0xB5 is one of the four is presumed (D11; log 7). -/
def Obligations.UnrecognizedOpcodeFaults : Prop :=
  ∀ (s : State) (c : Call), s.Starts c → s.byteAt s.pc ∉ [0xA9#8, 0xA5#8, 0xB5#8, 0x20#8] →
    step s = .next { s with
      pc := s.pc + 1,
      call := none,
      fault := some (.unrecognizedInstruction (s.byteAt s.pc) s.pc),
      result := some (.faulted (.unrecognizedInstruction (s.byteAt s.pc) s.pc) (c.budget - c.cyc + 1)) }

/-- The loop guard ends the call, and is the only test of the budget: with any two positive remainders an instruction
runs to the same end, at the same cost, even where the cost exceeds the remainder (40_engine.md R92, R93). The outcome
`Completed(budget - cyc)` the guard returns is a decision of the spec (R95, 92_eei_decisions.md D5; log 4). -/
def Obligations.LoopGuardIsTheOnlyBudgetTest : Prop :=
  (∀ (s : State) (c : Call), s.call = some c → c.cyc ≤ 0 →
    step s = .next { s with call := none, result := some (.completed (c.budget - c.cyc)) }) ∧
  ∀ (s : State) (c d : Call), 0 < c.cyc → 0 < d.cyc →
    ∃ (t u : State) (cost : Int),
      step { s with call := some c } = .next t ∧ step { s with call := some d } = .next u ∧
      { t with call := none, result := none } = { u with call := none, result := none } ∧
      ((t.call = some { c with cyc := c.cyc - cost } ∧ u.call = some { d with cyc := d.cyc - cost }) ∨
        (t.call = none ∧ u.call = none))

/-- An instruction that has started completes, with the call still in progress and no fault raised, or, its opcode
byte being none of the four, faults: the fault names the fetched byte and the PC it was fetched from
(60_exceptions.md R151; 30_encoding.md R65). It is never passed over as a no-op. That the fault is held and ends the
call is a decision of the spec (R152, 92_eei_decisions.md D7; log 5); that 0xB5 is one of the four is presumed (D11;
log 7). -/
def Obligations.StartedInstructionCompletesOrFaults : Prop :=
  ∀ (s : State) (c : Call), s.Starts c → ∃ t, step s = .next t ∧
    if s.byteAt s.pc ∈ [0xA9#8, 0xA5#8, 0xB5#8, 0x20#8] then t.call.isSome = true ∧ t.fault = s.fault
    else t.call = none ∧ t.fault = some (.unrecognizedInstruction (s.byteAt s.pc) s.pc)

/-- The cycle costs 2, 3, 4, 6, and 1 for an unrecognized opcode, as the call's counter or its outcome shows them
(40_engine.md R96; 70_reset_and_hazards.md R187). The opcode 0xB5 is the model's presumption (log 7), and the cost of
a stored byte the spec's inference (92_eei_decisions.md D12; log 10); the outcome of the unrecognized opcode is the
spec's decision (D5, D7; log 5). -/
def Obligations.CycleCosts : Prop :=
  ∀ (s t : State) (c : Call), s.Starts c → step s = .next t →
    (s.byteAt s.pc = 0xA9 → t.call = some { c with cyc := c.cyc - 2 }) ∧
    (s.byteAt s.pc = 0xA5 → t.call = some { c with cyc := c.cyc - 3 }) ∧
    (s.byteAt s.pc = 0xB5 → t.call = some { c with cyc := c.cyc - 4 }) ∧
    (s.byteAt s.pc = 0x20 → t.call = some { c with cyc := c.cyc - 6 }) ∧
    (s.byteAt s.pc ∉ [0xA9#8, 0xA5#8, 0xB5#8, 0x20#8] →
      ∃ f, t.result = some (.faulted f (c.budget - (c.cyc - 1))))

/-- No instruction reads the cycle counter: an instruction leaves the same state whatever call it runs in, and
charges it the same number of cycles (10_state.md R30, R35; the counter's type is the spec's decision D5). That it
also runs outside a call and charges nothing there is the model's own (log 4). -/
def Obligations.CycleCounterIsNeverData : Prop :=
  ∀ (i : Instr) (s : State), ∃ (t : State) (k : Nat), exec i s = .next t ∧
    ∀ q : Option Call, exec i { s with call := q } =
      .next { t with call := q.map fun c => { c with cyc := c.cyc - k } }

/-- 40_engine.md R81: `fetch_word` reads the low byte at PC and the high byte at the next address, moves PC by 2 and
charges 2 cycles; nothing else changes. That the next address and the new PC are taken modulo 65536 is a decision of
the spec (10_state.md R26, 92_eei_decisions.md D4; log 8). -/
def Obligations.FetchWordIsLittleEndian : Prop :=
  ∀ s : State,
    (fetchWord s).1.toNat = 256 * (s.mem.get ((s.pc.toNat + 1) % 65536)).toNat + (s.mem.get s.pc.toNat).toNat ∧
    (fetchWord s).2 = { s with pc := s.pc + 2, call := s.call.map fun c => { c with cyc := c.cyc - 2 } }

/-- 40_engine.md R82: `read_byte` reads the byte at any resolved address, charges one cycle and moves nothing, PC
included. -/
def Obligations.ReadByteLeavesPc : Prop :=
  ∀ (ea : Word) (s : State) (c : Call), s.call = some c →
    readByte ea s = (s.mem.get ea.toNat, { s with call := some { c with cyc := c.cyc - 1 } })

/-- PC increments modulo 65536, and a word fetched at the top of memory takes its second byte from address 0. That PC
wraps is a decision of the spec, not of its source (10_state.md R26, 92_eei_decisions.md D4; log 8). -/
def Obligations.PcWrapsAtTheTop : Prop :=
  ∀ s : State, (fetchByte s).2.pc.toNat = (s.pc.toNat + 1) % 65536 ∧
    (s.pc = 0xFFFF →
      (fetchByte s).2.pc = 0 ∧ (fetchWord s).2.pc = 1 ∧
      (fetchWord s).1.toNat = 256 * (s.mem.get 0).toNat + (s.mem.get 65535).toNat)

/-! ### LDA -/

/-- LDA Immediate's own effect, after its bytes are fetched (41_load_accumulator.md R110). -/
def Obligations.LdaImmediateEffect : Prop :=
  ∀ (imm8 : Byte) (s : State),
    exec (.ldaImm imm8) s = .next { s with a := imm8, flags := s.flags.loaded imm8 }

/-- LDA Zero Page's own effect, after its bytes are fetched: the byte at `zext16(zp)`, at one cycle
(41_load_accumulator.md R111). That it also runs outside a call, and charges nothing there, is the model's own (log
4). -/
def Obligations.LdaZeroPageEffect : Prop :=
  ∀ (zp : Byte) (s : State),
    exec (.ldaZp zp) s = .next { s with
      a := s.mem.get zp.toNat,
      flags := s.flags.loaded (s.mem.get zp.toNat),
      call := s.call.map fun c => { c with cyc := c.cyc - 1 } }

/-- LDA Zero Page,X's own effect, after its bytes are fetched: the byte at `(zp + X) mod 256`, at two cycles
(41_load_accumulator.md R112; 40_engine.md R88). That it also runs outside a call, and charges nothing there, is the
model's own (log 4). -/
def Obligations.LdaZeroPageXEffect : Prop :=
  ∀ (zp : Byte) (s : State),
    exec (.ldaZpx zp) s = .next { s with
      a := s.mem.get ((zp.toNat + s.x.toNat) % 256),
      flags := s.flags.loaded (s.mem.get ((zp.toNat + s.x.toNat) % 256)),
      call := s.call.map fun c => { c with cyc := c.cyc - 2 } }

/-- 41_load_accumulator.md R110 as a step: `A9 imm8` at PC. That PC wraps is a decision of the spec
(92_eei_decisions.md D4; log 8). -/
def Obligations.LdaImmediateStep : Prop :=
  ∀ (s : State) (c : Call), s.Starts c → s.byteAt s.pc = 0xA9 →
    step s = .next { s with
      a := s.byteAt (s.pc + 1),
      flags := s.flags.loaded (s.byteAt (s.pc + 1)),
      pc := s.pc + 2,
      call := some { c with cyc := c.cyc - 2 } }

/-- 41_load_accumulator.md R111 as a step: `A5 zp` at PC. That PC wraps is a decision of the spec
(92_eei_decisions.md D4; log 8). -/
def Obligations.LdaZeroPageStep : Prop :=
  ∀ (s : State) (c : Call), s.Starts c → s.byteAt s.pc = 0xA5 →
    step s = .next { s with
      a := s.mem.get (s.byteAt (s.pc + 1)).toNat,
      flags := s.flags.loaded (s.mem.get (s.byteAt (s.pc + 1)).toNat),
      pc := s.pc + 2,
      call := some { c with cyc := c.cyc - 3 } }

/-- 41_load_accumulator.md R112 as a step: `B5 zp` at PC. The opcode byte 0xB5 is the model's presumption (log 7);
that PC wraps is a decision of the spec (92_eei_decisions.md D4; log 8). -/
def Obligations.LdaZeroPageXStep : Prop :=
  ∀ (s : State) (c : Call), s.Starts c → s.byteAt s.pc = 0xB5 →
    step s = .next { s with
      a := s.mem.get (((s.byteAt (s.pc + 1)).toNat + s.x.toNat) % 256),
      flags := s.flags.loaded (s.mem.get (((s.byteAt (s.pc + 1)).toNat + s.x.toNat) % 256)),
      pc := s.pc + 2,
      call := some { c with cyc := c.cyc - 4 } }

/-- The frame of the three LDA forms: only A, Z and N, and the call's counter, may change (41_load_accumulator.md
R110 to R113). The counter falls by the cycles beyond the fetched bytes, and the call is otherwise as it was; that a
form also runs outside a call, and charges nothing there, is the model's own (log 4). -/
def Obligations.LdaFrame : Prop :=
  ∀ (i : Instr) (op : Byte) (s t : State),
    (i = .ldaImm op ∨ i = .ldaZp op ∨ i = .ldaZpx op) → exec i s = .next t →
    t.cfg = s.cfg ∧ t.x = s.x ∧ t.y = s.y ∧ t.sp = s.sp ∧ t.pc = s.pc ∧
    t.flags.c = s.flags.c ∧ t.flags.i = s.flags.i ∧ t.flags.d = s.flags.d ∧ t.flags.b = s.flags.b ∧
    t.flags.v = s.flags.v ∧
    t.fault = s.fault ∧ t.initialized = s.initialized ∧ t.host = s.host ∧ t.result = s.result ∧
    (t.call = s.call.map fun c => { c with cyc := c.cyc - match i with
      | .ldaImm _ => 0
      | .ldaZp _ => 1
      | .ldaZpx _ => 2
      | .jsr _ => 3 }) ∧
    ∀ addr : Nat, t.mem.get addr = s.mem.get addr

/-- 40_engine.md R90: Z is 1 exactly for 0, N exactly from 0x80 up, and no other flag is written. -/
def Obligations.FlagUnitWritesZAndN : Prop :=
  ∀ (v : Byte) (f : Flags), setZN v f = { f with z := decide (v = 0), n := decide (0x80 ≤ v.toNat) }

/-- 40_engine.md R88: Zero Page,X fetches `zp`, and its effective address is `(zp + X) mod 256`, inside page 0. The
fetch costs one cycle and the index computation one more, whether or not the sum wraps; X and everything else stay.
That PC wraps past 0xFFFF is a decision of the spec (92_eei_decisions.md D4; log 8). -/
def Obligations.IndexingStaysInPageZero : Prop :=
  ∀ s : State,
    (eaZpx (operandZp s).1 (operandZp s).2).1.toNat = ((s.byteAt s.pc).toNat + s.x.toNat) % 256 ∧
    (eaZpx (operandZp s).1 (operandZp s).2).1.toNat < 0x100 ∧
    (eaZpx (operandZp s).1 (operandZp s).2).2 =
      { s with pc := s.pc + 1, call := s.call.map fun c => { c with cyc := c.cyc - 2 } }

/-! ### JSR -/

/-- JSR's own effect under `DESCENDING`, after its bytes are fetched (42_subroutine.md R130, R131). PC is one past
the instruction, so the return address is PC - 1. The stack convention is a decision of the spec
(92_eei_decisions.md D3; log 11), as are the wraps of PC - 1 and SP (D4; log 8); that each stored byte costs a cycle is
its inference (D12; log 10), and that JSR also runs outside a call the model's own (log 4). -/
def Obligations.JsrDescendingEffect : Prop :=
  ∀ (target : Word) (s : State), s.cfg.jsrStack = .descending →
    exec (.jsr target) s = .next { s with
      pc := target,
      sp := s.sp - 2,
      mem := (s.mem.set (0x0100 + s.sp.toNat) (hi8 (s.pc - 1))).set (0x0100 + (s.sp - 1).toNat) (lo8 (s.pc - 1)),
      call := s.call.map fun c => { c with cyc := c.cyc - 3 } }

/-- JSR's own effect under `LEGACY`, after its bytes are fetched (42_subroutine.md R130, R132). The wrap of PC - 1 is a
decision of the spec (92_eei_decisions.md D4; log 8); that each stored byte costs a cycle is its inference (D12; log
10), and that JSR also runs outside a call the model's own (log 4). -/
def Obligations.JsrLegacyEffect : Prop :=
  ∀ (target : Word) (s : State), s.cfg.jsrStack = .legacy →
    exec (.jsr target) s = .next { s with
      pc := target,
      mem := (s.mem.set s.sp.toNat (lo8 (s.pc - 1))).set (s.sp.toNat + 1) (hi8 (s.pc - 1)),
      call := s.call.map fun c => { c with cyc := c.cyc - 3 } }

/-- 42_subroutine.md R130 as a step: `20 lo hi` at PC pushes the address of its last byte, jumps to
`(hi << 8) | lo` and costs 6 cycles; nothing else changes. `pushReturn` follows the configured convention,
and `JsrTotals` says which bytes it stores. The convention and the wraps of PC and SP are decisions of the spec
(92_eei_decisions.md D3, D4; log 1, log 8, log 11). -/
def Obligations.JsrStep : Prop :=
  ∀ (s : State) (c : Call), s.Starts c → s.byteAt s.pc = 0x20 →
    step s = .next { pushReturn (s.pc + 2) s with
      pc := BitVec.ofNat 16 (256 * (s.byteAt (s.pc + 2)).toNat + (s.byteAt (s.pc + 1)).toNat),
      call := some { c with cyc := c.cyc - 6 } }

/-- The frame of JSR: PC, the two bytes it stores, the call's counter and, under `DESCENDING`, SP. The addresses
stored to are computed with the functions the meaning uses (42_subroutine.md R131 to R133). Which addresses those are
under `DESCENDING` is a decision of the spec (92_eei_decisions.md D3; log 1), as is the wrap of SP (D4; log 8); that
each stored byte costs a cycle is its inference (D12; log 10), and that JSR also runs outside a call the model's own
(log 4). -/
def Obligations.JsrFrame : Prop :=
  ∀ (target : Word) (s t : State), exec (.jsr target) s = .next t →
    t.cfg = s.cfg ∧ t.a = s.a ∧ t.x = s.x ∧ t.y = s.y ∧ t.flags = s.flags ∧ t.fault = s.fault ∧
    t.initialized = s.initialized ∧ t.host = s.host ∧ t.result = s.result ∧
    (t.call = s.call.map fun c => { c with cyc := c.cyc - 3 }) ∧
    (s.cfg.jsrStack = .descending → t.sp = s.sp - 2 ∧
      ∀ addr : Nat, addr ≠ (stackAddr s.sp).toNat → addr ≠ (stackAddr (s.sp - 1)).toNat →
        t.mem.get addr = s.mem.get addr) ∧
    (s.cfg.jsrStack = .legacy → t.sp = s.sp ∧
      ∀ addr : Nat, addr ≠ (zext16 s.sp).toNat → addr ≠ (zext16 s.sp + 1).toNat →
        t.mem.get addr = s.mem.get addr)

/-- JSR as a step: it costs 6 cycles, leaves PC at the target, changes no flag and no register other than PC and, under
`DESCENDING` only, SP, and writes exactly two bytes: the two of the return address (42_subroutine.md R133). Where each
of the two lies under `DESCENDING`, high byte above low byte, is a decision of the spec (R131, 92_eei_decisions.md D3;
log 11), as are the wraps of PC and SP (D4; log 8). -/
def Obligations.JsrTotals : Prop :=
  ∀ (s : State) (c : Call), s.Starts c → s.byteAt s.pc = 0x20 →
    ∃ (t : State) (hiAt loAt : Nat), step s = .next t ∧
      t.call = some { c with cyc := c.cyc - 6 } ∧
      t.pc.toNat = 256 * (s.byteAt (s.pc + 2)).toNat + (s.byteAt (s.pc + 1)).toNat ∧
      t.flags = s.flags ∧ t.a = s.a ∧ t.x = s.x ∧ t.y = s.y ∧
      (match s.cfg.jsrStack with
        | .descending => hiAt = 0x0100 + s.sp.toNat ∧ loAt = 0x0100 + (s.sp - 1).toNat ∧ t.sp = s.sp - 2
        | .legacy => hiAt = s.sp.toNat + 1 ∧ loAt = s.sp.toNat ∧ t.sp = s.sp) ∧
      ∀ addr : Nat, t.mem.get addr =
        if addr = hiAt then hi8 (s.pc + 2) else if addr = loAt then lo8 (s.pc + 2) else s.mem.get addr

/-- The descending push leaves the return address as a little-endian word below the entry SP, or, with SP = 0x00,
split between 0x0100 and 0x01FF; SP falls by 2 modulo 256, and two cycles are charged (42_subroutine.md R131). The
push order and the wrap are decisions of the spec (92_eei_decisions.md D3, D4; log 8, log 11); that each byte written
costs one of the two cycles is its inference (40_engine.md R84, D12; log 10). -/
def Obligations.DescendingPush : Prop :=
  ∀ (ret : Word) (s : State), s.cfg.jsrStack = .descending →
    (s.sp ≠ 0 →
      (pushReturn ret s).mem.get (0x0100 + s.sp.toNat - 1) = lo8 ret ∧
      (pushReturn ret s).mem.get (0x0100 + s.sp.toNat) = hi8 ret) ∧
    (s.sp = 0 →
      (pushReturn ret s).mem.get 0x0100 = hi8 ret ∧ (pushReturn ret s).mem.get 0x01FF = lo8 ret ∧
      (pushReturn ret s).sp = 0xFE) ∧
    (pushReturn ret s).sp.toNat = (s.sp.toNat + 254) % 256 ∧
    (pushReturn ret s).call = s.call.map (fun c => { c with cyc := c.cyc - 2 }) ∧
    ∀ addr : Nat, addr < 0x0100 ∨ 0x01FF < addr → (pushReturn ret s).mem.get addr = s.mem.get addr

/-- 42_subroutine.md R132: the legacy push writes a little-endian word at SP, at most up to 0x0100, leaves SP, and
charges two cycles; a second push with nothing between overwrites both bytes of the first. That each byte written
costs one of the two cycles is the spec's inference (40_engine.md R84, 92_eei_decisions.md D12; log 10). -/
def Obligations.LegacyPush : Prop :=
  ∀ (ret ret' : Word) (s : State), s.cfg.jsrStack = .legacy →
    (pushReturn ret s).mem.get s.sp.toNat = lo8 ret ∧
    (pushReturn ret s).mem.get (s.sp.toNat + 1) = hi8 ret ∧
    (pushReturn ret s).sp = s.sp ∧
    (pushReturn ret s).call = s.call.map (fun c => { c with cyc := c.cyc - 2 }) ∧
    (∀ addr : Nat, 0x0100 < addr → (pushReturn ret s).mem.get addr = s.mem.get addr) ∧
    ∀ addr : Nat, (pushReturn ret' (pushReturn ret s)).mem.get addr = (pushReturn ret' s).mem.get addr

/-- The two stack conventions agree on everything but SP and the bytes one of them stores, at the addresses the
meanings compute (42_subroutine.md R131, R132). The choice between them and the wrap of SP are
decisions of the spec (92_eei_decisions.md D3, D4; log 1, log 8). -/
def Obligations.StackConventionsAgreeElsewhere : Prop :=
  ∀ (target : Word) (s : State) (p q : Config), ∃ t u : State,
    exec (.jsr target) { s with cfg := p } = .next t ∧ exec (.jsr target) { s with cfg := q } = .next u ∧
    { t with cfg := s.cfg, sp := s.sp, mem := s.mem } = { u with cfg := s.cfg, sp := s.sp, mem := s.mem } ∧
    ∀ addr : Nat, addr ≠ (stackAddr s.sp).toNat → addr ≠ (stackAddr (s.sp - 1)).toNat →
      addr ≠ (zext16 s.sp).toNat → addr ≠ (zext16 s.sp + 1).toNat → t.mem.get addr = u.mem.get addr

/-- A JSR whose push lands on its own target is seen by the next fetch: the opcode fetched next is the byte pushed
there. That a store is seen by later fetches is the spec's inference (20_memory.md R53, R55); that the byte pushed at
0x0100 + (SP - 1) is the low one is its decision (92_eei_decisions.md D3; log 11), as are the wraps of PC and SP (D4;
log 8). -/
def Obligations.PushOnTheTargetIsFetched : Prop :=
  ∀ (s : State) (c : Call), s.Starts c → s.cfg.jsrStack = .descending → s.byteAt s.pc = 0x20 →
    256 * (s.byteAt (s.pc + 2)).toNat + (s.byteAt (s.pc + 1)).toNat = 0x0100 + (s.sp - 1).toNat →
    ∃ t, step s = .next t ∧ (fetchByte t).1 = lo8 (s.pc + 2)

/-! ### Who writes what -/

/-- Inside a call, X, Y, C, I, D, B, V, the configuration, `initialized` and the host's commands stay; A, Z and N
change only by an LDA, SP only by a JSR under `DESCENDING`, memory only by a JSR: what the spec infers of the whole
subset (10_state.md R21 to R24, R28, R29; 20_memory.md R45). The two stack conventions are a decision of the spec
(92_eei_decisions.md D3; log 1); that 0xB5 is an LDA is presumed (D11; log 7). -/
def Obligations.InstructionsWriteOnlyTheirState : Prop :=
  ∀ (s t : State) (c : Call), s.Starts c → step s = .next t →
    t.x = s.x ∧ t.y = s.y ∧ t.flags.c = s.flags.c ∧ t.flags.i = s.flags.i ∧ t.flags.d = s.flags.d ∧
    t.flags.b = s.flags.b ∧ t.flags.v = s.flags.v ∧ t.cfg = s.cfg ∧ t.initialized = s.initialized ∧
    t.host = s.host ∧
    (s.byteAt s.pc ∉ [0xA9#8, 0xA5#8, 0xB5#8] →
      t.a = s.a ∧ t.flags.z = s.flags.z ∧ t.flags.n = s.flags.n) ∧
    (s.byteAt s.pc ≠ 0x20 ∨ s.cfg.jsrStack = .legacy → t.sp = s.sp) ∧
    (s.byteAt s.pc ≠ 0x20 → ∀ addr : Nat, t.mem.get addr = s.mem.get addr)

/-- X, Y and the flags C, I, D, B and V are written only by reset and by the host, as the spec infers (10_state.md
R22, R23, R29) and with the host's access it decides on (92_eei_decisions.md D8; log 19). -/
def Obligations.OnlyResetAndHostWriteXYCIDBV : Prop :=
  ∀ s t : State, step s = .next t → s.call ≠ none ∨ (∀ rest, s.host ≠ .reset :: rest) →
    (t.x ≠ s.x → ∃ v rest, s.Issues (.writeReg .x v) rest) ∧
    (t.y ≠ s.y → ∃ v rest, s.Issues (.writeReg .y v) rest) ∧
    ∀ f ∈ [Flag.c, .i, .d, .b, .v], t.flags.read f ≠ s.flags.read f → ∃ e rest, s.Issues (.writeFlag f e) rest

/-- Once set, `initialized` stays, only reset sets it, and no step changes the configuration. `initialized` and its
setting by reset are decisions of the spec (10_state.md R33, 92_eei_decisions.md D6, D13; log 9, log 20), the
configuration in State the model's own choice (log 1). -/
def Obligations.InitializedAndConfigStay : Prop :=
  ∀ s t : State, step s = .next t → t.cfg = s.cfg ∧ (s.initialized = true → t.initialized = true) ∧
    (s.initialized = false → t.initialized = true → ∃ rest, s.Issues .reset rest)

/-! ### Memory -/

/-- Two memories in canonical form that read alike at every address are equal: the form is unique, so equal memories
are equal data (log 12). -/
def Obligations.CanonicalMemoriesThatReadAlikeAreEqual : Prop :=
  ∀ m n : Memory, m.wf → n.wf → (∀ addr : Nat, m.get addr = n.get addr) → m = n

/-- A host read answers the byte or OutOfRange, and changes nothing (20_memory.md R41). That the failing call returns
the error as its result and the machine goes on is read from 60_exceptions.md R154, the spec's inference (log 14). -/
def Obligations.HostMemoryRead : Prop :=
  ∀ (s : State) (addr : Nat) (rest : List Command), s.Issues (.memRead addr) rest →
    step s = .next { s with
      host := rest,
      result := some (if addr < 65536 then .byte (s.mem.get addr) else .error (.outOfRange addr)) }

/-- A host write changes exactly one byte, or, outside memory, answers OutOfRange and writes nothing (20_memory.md
R42). That the failing call returns the error as its result and the machine goes on is read from 60_exceptions.md
R154, the spec's inference (log 14). -/
def Obligations.HostMemoryWrite : Prop :=
  ∀ (s : State) (addr : Nat) (v : Byte) (rest : List Command), s.Issues (.memWrite addr v) rest →
    ∃ t, step s = .next t ∧ t = { s with host := rest, mem := t.mem, result := t.result } ∧
      (addr < 65536 → t.result = some .done ∧
        ∀ b : Nat, t.mem.get b = if b = addr then v else s.mem.get b) ∧
      (65536 ≤ addr → t.result = some (.error (.outOfRange addr)) ∧ t.mem = s.mem)

/-- A host word write is little-endian, and at or past the top writes neither byte and answers the first address that
does not exist (20_memory.md R44; 90_conflicts.md C5). That the failing call returns the error as its result and the
machine goes on is read from 60_exceptions.md R154, the spec's inference (log 14). -/
def Obligations.HostMemoryWriteWord : Prop :=
  ∀ (s : State) (addr : Nat) (w : Word) (rest : List Command), s.Issues (.memWriteWord addr w) rest →
    ∃ t, step s = .next t ∧ t = { s with host := rest, mem := t.mem, result := t.result } ∧
      (addr + 1 < 65536 → t.result = some .done ∧
        ∀ b : Nat, t.mem.get b = if b = addr then lo8 w else if b = addr + 1 then hi8 w else s.mem.get b) ∧
      (addr = 65535 → t.result = some (.error (.outOfRange 65536)) ∧ t.mem = s.mem) ∧
      (65536 ≤ addr → t.result = some (.error (.outOfRange addr)) ∧ t.mem = s.mem)

/-- 20_memory.md R43: `init` sets every byte to 0 and touches nothing else. -/
def Obligations.HostMemoryInit : Prop :=
  ∀ (s : State) (rest : List Command), s.Issues .memInit rest →
    ∃ t, step s = .next t ∧ t = { s with host := rest, mem := t.mem, result := some .done } ∧
      ∀ addr : Nat, t.mem.get addr = 0

/-! ### Reset and the host interface -/

/-- What the `reset` command leaves, from any state between commands (70_reset_and_hazards.md R180). That it clears
the fault and sets `initialized` is a decision of the spec (92_eei_decisions.md D13; log 20); what stays of the host's
side is the model's choice (log 2). -/
def Obligations.ResetCommand : Prop :=
  ∀ (s : State) (rest : List Command), s.Issues .reset rest →
    ∃ t, step s = .next t ∧ t.pc = 0xFFFC ∧ t.sp = s.cfg.resetSp ∧
      t.flags = ⟨false, false, false, false, false, false, false⟩ ∧ t.a = 0x00 ∧ t.x = 0x00 ∧ t.y = 0x00 ∧
      (∀ addr : Nat, t.mem.get addr = 0x00) ∧ t.fault = none ∧ t.initialized = true ∧ t.call = none ∧
      t.cfg = s.cfg ∧ t.host = rest ∧ t.result = some .done

/-- The state after reset under the default configuration: every value of 70_reset_and_hazards.md R180. SP = 0xFF is
the spec's choice between two (92_eei_decisions.md D2; log 1); that reset also clears the fault and sets `initialized`
is its decision (D13; log 20). -/
def Obligations.ResetState : Prop :=
  State.reset.pc = 0xFFFC ∧ State.reset.sp = 0xFF ∧
  State.reset.flags = ⟨false, false, false, false, false, false, false⟩ ∧
  State.reset.a = 0x00 ∧ State.reset.x = 0x00 ∧ State.reset.y = 0x00 ∧
  (∀ addr : Nat, State.reset.mem.get addr = 0x00) ∧ State.reset.fault = none ∧
  State.reset.initialized = true ∧ State.reset.call = none

/-- After `reset` the first opcode is fetched from 0xFFFC itself, whatever memory held, and reads as 0x00 there
(70_reset_and_hazards.md R181); an `execute` with nothing placed in between faults on it. That the fault is then held,
and `Faulted` returned with 1 cycle consumed, is a decision of the spec (60_exceptions.md R152, 92_eei_decisions.md
D5, D7; log 5), as is that the reset cleared any fault held before and made the machine ready to execute (D13; log
20). -/
def Obligations.ResetThenExecuteFaultsAtTheResetPc : Prop :=
  ∀ (s : State) (budget : Nat) (rest : List Command), 0 < budget → s.Issues .reset (.execute budget :: rest) →
    ∃ t u, run 1 s = .next t ∧ t.pc = 0xFFFC ∧ t.mem.get 0xFFFC = 0x00 ∧ t.mem.get 0xFFFD = 0x00 ∧
      run 3 s = .next u ∧ u.fault = some (.unrecognizedInstruction 0x00 0xFFFC) ∧
      u.result = some (.faulted (.unrecognizedInstruction 0x00 0xFFFC) 1)

/-- `execute` before the first reset, or with a negative budget, is refused, and no other call of it is: a decision
of the spec (40_engine.md R98, 92_eei_decisions.md D5, D6; log 4, log 9). -/
def Obligations.ExecutePreconditions : Prop :=
  ∀ (s : State) (budget : Int) (rest : List Command), s.Issues (.execute budget) rest →
    ((s.initialized = false ∨ budget < 0) ↔ ∃ r, step s = .refused r)

/-- `execute` starts: the counter takes the budget, and nothing of the machine changes (40_engine.md R92). That this
is a step of its own is the model's choice (log 3), and the types of budget and counter are the spec's decision
(92_eei_decisions.md D5; log 4). -/
def Obligations.ExecuteStarts : Prop :=
  ∀ (s : State) (budget : Nat) (rest : List Command), s.Issues (.execute budget) rest →
    s.initialized = true → s.fault = none →
    step s = .next { s with host := rest, result := none, call := some { budget := budget, cyc := budget } }

/-- `execute(0)` runs no instruction, changes no state and returns `Completed(0)`, as the spec infers (40_engine.md
R97). The outcome is a decision of the spec (R95, 92_eei_decisions.md D5; log 4). -/
def Obligations.ExecuteZeroChangesNothing : Prop :=
  ∀ (s : State) (rest : List Command), s.Issues (.execute 0) rest → s.initialized = true → s.fault = none →
    run 2 s = .next { s with host := rest, result := some (.completed 0) }

/-- While a fault is held, `execute` runs nothing, changes no state and returns `Faulted(fault, 0)`; and only reset
clears the fault. Decisions of the spec (40_engine.md R99, 92_eei_decisions.md D7, D13; log 5, log 20). -/
def Obligations.HeldFaultStaysUntilReset : Prop :=
  ∀ (s : State) (f : Fault), s.initialized = true → s.call = none → s.fault = some f →
    (∀ (budget : Nat) (rest : List Command), s.host = .execute budget :: rest →
      step s = .next { s with host := rest, result := some (.faulted f 0) }) ∧
    ∀ t, step s = .next t → t.fault ≠ some f → t.fault = none ∧ ∃ rest, s.host = .reset :: rest

/-- Between commands a register, PC or flag the host writes takes the value, which a read gives back; a write changes
nothing else. A decision of the spec (10_state.md R34, 92_eei_decisions.md D8; log 19). -/
def Obligations.HostRegisterAccess : Prop :=
  ∀ (s : State) (rest : List Command), s.call = none → s.initialized = true →
    (∀ (r q : Reg) (v : Byte), s.host = .writeReg r v :: .readReg q :: rest →
      ∃ t, run 2 s = .next t ∧ t.result = some (.byte (if q = r then v else s.readReg q)) ∧
        t = { s with a := t.a, x := t.x, y := t.y, sp := t.sp, host := rest, result := t.result } ∧
        ∀ p : Reg, t.readReg p = if p = r then v else s.readReg p) ∧
    (∀ w : Word, s.host = .writePc w :: .readPc :: rest →
      run 2 s = .next { s with pc := w, host := rest, result := some (.word w) }) ∧
    (∀ (f g : Flag) (e : Bool), s.host = .writeFlag f e :: .readFlag g :: rest →
      ∃ t, run 2 s = .next t ∧ t.result = some (.bit (if g = f then e else s.flags.read g)) ∧
        t = { s with flags := t.flags, host := rest, result := t.result } ∧
        ∀ p : Flag, t.flags.read p = if p = f then e else s.flags.read p)

/-- Where a step answers no next state: halted on a held fault with no command pending, which is the model's choice
(log 5); `execute` or a read before the first reset, and a negative budget, which are decisions of the spec
(10_state.md R33, 40_engine.md R98, 92_eei_decisions.md D5, D6; log 4, log 9). Where the two refusals meet, an
`execute` with a negative budget before the first reset, the model answers that it is not initialized (log 15). In
particular a step never answers OutOfRange (20_memory.md R46). -/
def Obligations.StepStopsExactlyHere : Prop :=
  (∀ (s : State) (f : Fault), step s = .fault f ↔ s.call = none ∧ s.host = [] ∧ s.fault = some f) ∧
  (∀ s : State, step s = .refused .notInitialized ↔
    s.initialized = false ∧ ((∃ b rest, s.Issues (.execute b) rest) ∨ (∃ r rest, s.Issues (.readReg r) rest) ∨
      (∃ rest, s.Issues .readPc rest) ∨ ∃ f rest, s.Issues (.readFlag f) rest)) ∧
  (∀ s : State, step s = .refused .negativeBudget ↔
    s.initialized = true ∧ ∃ b rest, b < 0 ∧ s.Issues (.execute b) rest) ∧
  ∀ (s : State) (r : Refusal), step s = .refused r → r = .notInitialized ∨ r = .negativeBudget

/-- With no command in progress or pending and no fault held, the CORE is idle: a step changes nothing
(60_exceptions.md R162; that the model gives such a state a step at all is its choice, log 18). -/
def Obligations.IdleCoreStays : Prop :=
  ∀ s : State, s.call = none → s.host = [] → s.fault = none → ∀ k : Nat, run k s = .next s

/-! ### Invariants and whole calls -/

/-- The invariant holds after reset, under every configuration. The canonical form of memory is the model's (log 12);
that reset clears the fault and sets `initialized` is a decision of the spec (92_eei_decisions.md D13; log 20). -/
def Obligations.ResetMeetsInv : Prop :=
  ∀ cfg : Config, (State.resetAt cfg).Inv

/-- Every step keeps the invariant: canonical memory; a call in progress only in a machine that has been reset and
holds no fault, with `-5 ≤ cyc ≤ budget`, as the spec infers (40_engine.md R94); and only a fault of an opcode
without a handler held (10_state.md R32, its decision D7; log 5). The canonical form is the model's own (log 12). -/
def Obligations.StepKeepsInv : Prop :=
  ∀ s t : State, s.Inv → step s = .next t → t.Inv

/-- `execute(budget)` returns within `budget + 2` steps, either `Completed` with between `budget` and `budget + 5`
cycles consumed (none for budget 0), or `Faulted` with the held fault and between 1 and `budget` cycles. The bounds
are the spec's inference (40_engine.md R94), the outcome and the held fault its decisions (R95, 92_eei_decisions.md D5,
D7; log 4, log 5). -/
def Obligations.ExecuteReturnsWithinItsBounds : Prop :=
  ∀ (s : State) (budget : Nat) (rest : List Command), s.Issues (.execute budget) rest →
    s.initialized = true → s.fault = none →
    ∃ k ≤ budget + 2, ∃ t : State, run k s = .next t ∧ t.call = none ∧ t.host = rest ∧
      ((∃ n : Int, t.result = some (.completed n) ∧ t.fault = none ∧ (budget : Int) ≤ n ∧ n ≤ budget + 5 ∧
          (budget = 0 → n = 0)) ∨
        ∃ (f : Fault) (n : Int), t.result = some (.faulted f n) ∧ t.fault = some f ∧ 1 ≤ n ∧ n ≤ budget)

/-- The steps of an `execute` call compute what the loop of 40_engine.md R92, written as one function, computes:
the same end state, or the same refusal, for every budget and every state between commands. The outcomes and refusals
are decisions of the spec (92_eei_decisions.md D5, D6; log 4, log 9), the division into steps the model's (log 3). -/
def Obligations.StepsComputeExecute : Prop :=
  ∀ (s : State) (budget : Int) (rest : List Command), s.Issues (.execute budget) rest →
    ∃ k ≤ budget.toNat + 2, run k s = execute budget { s with host := rest, result := none }

/-- A run of one `execute` call without a `Faulted` outcome ends `Completed`. The outcomes are a decision of the spec
(40_engine.md R95, R102, 92_eei_decisions.md D5; log 4). -/
def Obligations.FaultFreeCallCompletes : Prop :=
  ∀ (s : State) (budget : Nat), s.Issues (.execute budget) [] → s.initialized = true →
    FaultFree (budget + 2) s →
    ∃ (t : State) (n : Int), run (budget + 2) s = .next t ∧ t.call = none ∧ t.result = some (.completed n)
end

