-- ==== Sys2Proof/Laws/Decode.lean ====
section
/-!
SUPPORT. The laws of the byte helpers and of the opcode map.
-/

namespace Sys2Proof

/-- A word's value from its bytes (00_scope.md R7). -/
theorem mkWord_toNat (h l : Byte) : (mkWord h l).toNat = 256 * h.toNat + l.toNat := by
  have := l.isLt
  rw [mkWord, BitVec.toNat_append, Nat.shiftLeft_eq, ← Nat.shiftLeft_eq, ← Nat.shiftLeft_add_eq_or_of_lt this,
    Nat.shiftLeft_eq]
  omega

@[simp] theorem lo8_toNat (w : Word) : (lo8 w).toNat = w.toNat % 256 := by
  simp [lo8]

@[simp] theorem hi8_toNat (w : Word) : (hi8 w).toNat = w.toNat / 256 := by
  have := w.isLt
  simp [hi8, Nat.shiftRight_eq_div_pow]
  omega

@[simp] theorem lo8_mkWord (h l : Byte) : lo8 (mkWord h l) = l := by
  apply BitVec.eq_of_toNat_eq
  rw [lo8_toNat, mkWord_toNat]
  omega

@[simp] theorem hi8_mkWord (h l : Byte) : hi8 (mkWord h l) = h := by
  apply BitVec.eq_of_toNat_eq
  rw [hi8_toNat, mkWord_toNat]
  omega

@[simp] theorem mkWord_hi8_lo8 (w : Word) : mkWord (hi8 w) (lo8 w) = w := by
  apply BitVec.eq_of_toNat_eq
  rw [mkWord_toNat, hi8_toNat, lo8_toNat]
  omega

@[simp] theorem zext16_toNat (b : Byte) : (zext16 b).toNat = b.toNat := by
  simp only [zext16, BitVec.toNat_setWidth]
  omega

theorem decodeOpcode_eq_none (op : Byte) :
    decodeOpcode op = none ↔ op ∉ [opcodeLdaImm, opcodeLdaZp, opcodeLdaZpx, opcodeJsr] := by
  revert op
  decide

theorem decodeOpcode_eq_some (op : Byte) (h : Handler) :
    decodeOpcode op = some h ↔ op = match h with
      | .ldaImm => opcodeLdaImm
      | .ldaZp => opcodeLdaZp
      | .ldaZpx => opcodeLdaZpx
      | .jsrAbs => opcodeJsr := by
  revert op
  cases h <;> decide

end Sys2Proof
end

