-- ==== Sys2Proof/Laws/Memory.lean ====
section
/-!
SUPPORT. The laws of memory: a read after a write, every other address as before, and the canonical form kept.
-/

namespace Sys2Proof.Machine

variable (m : Memory) (a b : Nat) (v : Byte)

@[simp] theorem Memory.get_nil : Memory.get [] a = unlistedByte := rfl

theorem Memory.get_cons (c : Host.Cell) :
    Memory.get (c :: m) a = if c.1 = a then c.2 else Memory.get m a := rfl

@[simp] theorem Memory.get_zero : Memory.zero.get a = unlistedByte := rfl

@[simp] theorem Memory.get_unlist_same : (m.unlist a).get a = unlistedByte := by
  induction m with
  | nil => rfl
  | cons c rest ih =>
    by_cases h : c.1 = a
    · simpa [Memory.unlist, h] using ih
    · simpa [Memory.unlist, Memory.get_cons, h] using ih

theorem Memory.get_unlist_other (h : b ≠ a) : (m.unlist a).get b = m.get b := by
  induction m with
  | nil => rfl
  | cons c rest ih =>
    by_cases hc : c.1 = a
    · have hb : c.1 ≠ b := fun e => h (e.symm.trans hc)
      simpa [Memory.unlist, Memory.get_cons, hc, hb, h.symm] using ih
    · by_cases hb : c.1 = b <;> simp_all [Memory.unlist, Memory.get_cons]

/-- Listing a cell for an address that is not listed. -/
theorem Memory.get_insertCell (hne : ∀ c ∈ m, c.1 ≠ a) :
    (Memory.insertCell a v m).get b = if b = a then v else m.get b := by
  induction m with
  | nil => simp [Memory.insertCell, Memory.get_cons, eq_comm]
  | cons c rest ih =>
    have hc : c.1 ≠ a := hne c (by simp)
    have ih := ih (fun d hd => hne d (by simp [hd]))
    unfold Memory.insertCell
    split
    · by_cases hb : b = a
      · simp [Memory.get_cons, hb]
      · simp [Memory.get_cons, hb, Ne.symm hb]
    · by_cases hb : c.1 = b
      · have : b ≠ a := fun e => hc (hb.trans e)
        simp [Memory.get_cons, hb, this]
      · simp [Memory.get_cons, hb, ih]

theorem Memory.unlist_ne (c : Host.Cell) (hc : c ∈ m.unlist a) : c.1 ≠ a := by
  simpa using (List.mem_filter.mp hc).2

/-- What a write does to every read: the byte written at its address, every other address as before. It holds of
every list of cells, canonical or not. -/
theorem Memory.get_set : (m.set a v).get b = if b = a then v else m.get b := by
  unfold Memory.set
  split
  · rename_i hv
    by_cases h : b = a
    · simp [h, hv]
    · simp [h, Memory.get_unlist_other _ _ _ h]
  · rw [Memory.get_insertCell _ _ _ _ (Memory.unlist_ne m a)]
    split
    · rfl
    · exact Memory.get_unlist_other _ _ _ ‹_›

@[simp] theorem Memory.get_set_same : (m.set a v).get a = v := by simp [Memory.get_set]

theorem Memory.get_set_other (h : b ≠ a) : (m.set a v).get b = m.get b := by simp [Memory.get_set, h]

/-! ### The canonical form -/

@[simp] theorem Memory.wf_zero : Memory.zero.wf := by decide

theorem Memory.unlist_wf (h : m.wf) : (m.unlist a).wf :=
  ⟨h.1.filter _, fun c hc => h.2 c (List.mem_of_mem_filter hc)⟩

theorem Memory.mem_insertCell (c : Host.Cell) :
    c ∈ Memory.insertCell a v m ↔ c = (a, v) ∨ c ∈ m := by
  induction m with
  | nil => simp [Memory.insertCell]
  | cons d rest ih =>
    unfold Memory.insertCell
    split
    · simp
    · simp [ih]; tauto

theorem Memory.insertCell_wf (h : m.wf) (hne : ∀ c ∈ m, c.1 ≠ a) (ha : a < memSize) (hv : v ≠ unlistedByte) :
    Memory.wf (Memory.insertCell a v m) := by
  refine ⟨?_, fun c hc => ?_⟩
  · have hs := h.1
    clear h
    induction m with
    | nil => simp [Memory.insertCell]
    | cons d rest ih =>
      have ⟨hd, hrest⟩ := List.pairwise_cons.mp hs
      unfold Memory.insertCell
      split
      · rename_i hlt
        refine List.pairwise_cons.mpr ⟨fun c hc => ?_, hs⟩
        rcases List.mem_cons.mp hc with rfl | hc
        · exact hlt
        · exact Nat.lt_trans hlt (hd c hc)
      · rename_i hge
        have hda : d.1 ≠ a := hne d (by simp)
        refine List.pairwise_cons.mpr ⟨fun c hc => ?_, ih (fun c hc => hne c (by simp [hc])) hrest⟩
        rcases (Memory.mem_insertCell _ _ _ _).mp hc with rfl | hc
        · show d.1 < a
          omega
        · exact hd c hc
  · rcases (Memory.mem_insertCell _ _ _ _).mp hc with rfl | hc
    · exact ⟨ha, hv⟩
    · exact h.2 c hc

/-- A write at an address that exists keeps the canonical form. -/
theorem Memory.set_wf (h : m.wf) (ha : a < memSize) : (m.set a v).wf := by
  unfold Memory.set
  split
  · exact Memory.unlist_wf m a h
  · exact Memory.insertCell_wf _ a v (Memory.unlist_wf m a h) (Memory.unlist_ne m a) ha ‹_›

/-- A CORE address exists (20_memory.md R46). -/
theorem word_lt_memSize (w : Word) : w.toNat < memSize := w.isLt

theorem memWrite_wf {m m' : Memory} {a : Nat} {v : Byte} (h : m.wf) (hw : memWrite m a v = .ok m') : m'.wf := by
  unfold memWrite at hw
  split at hw
  · cases hw
  · cases hw
    exact Memory.set_wf m a v h (by omega)

theorem memWriteWord_wf {m m' : Memory} {a : Nat} {w : Word} (h : m.wf) (hw : memWriteWord m a w = .ok m') :
    m'.wf := by
  unfold memWriteWord at hw
  split at hw
  · cases hw
  · split at hw
    · cases hw
    · cases hw
      exact Memory.set_wf _ _ _ (Memory.set_wf m _ _ h (by omega)) (by omega)

end Sys2Proof.Machine
end

