-- ==== Sys2Proof/Laws/State.lean ====
section
/-!
SUPPORT. What each setter of Machine/Ops.lean does to each field of State: one simp lemma per field per setter, so
that no later proof unfolds a record update.
-/

namespace Sys2Proof.Machine

variable (s : State)

/-! ### setA -/

@[simp] theorem State.setA_cfg (v : Byte) : (s.setA v).cfg = s.cfg := rfl
@[simp] theorem State.setA_a (v : Byte) : (s.setA v).a = v := rfl
@[simp] theorem State.setA_x (v : Byte) : (s.setA v).x = s.x := rfl
@[simp] theorem State.setA_y (v : Byte) : (s.setA v).y = s.y := rfl
@[simp] theorem State.setA_sp (v : Byte) : (s.setA v).sp = s.sp := rfl
@[simp] theorem State.setA_pc (v : Byte) : (s.setA v).pc = s.pc := rfl
@[simp] theorem State.setA_flags (v : Byte) : (s.setA v).flags = s.flags := rfl
@[simp] theorem State.setA_mem (v : Byte) : (s.setA v).mem = s.mem := rfl
@[simp] theorem State.setA_call (v : Byte) : (s.setA v).call = s.call := rfl
@[simp] theorem State.setA_fault (v : Byte) : (s.setA v).fault = s.fault := rfl
@[simp] theorem State.setA_initialized (v : Byte) : (s.setA v).initialized = s.initialized := rfl
@[simp] theorem State.setA_host (v : Byte) : (s.setA v).host = s.host := rfl
@[simp] theorem State.setA_result (v : Byte) : (s.setA v).result = s.result := rfl

/-! ### setX -/

@[simp] theorem State.setX_cfg (v : Byte) : (s.setX v).cfg = s.cfg := rfl
@[simp] theorem State.setX_a (v : Byte) : (s.setX v).a = s.a := rfl
@[simp] theorem State.setX_x (v : Byte) : (s.setX v).x = v := rfl
@[simp] theorem State.setX_y (v : Byte) : (s.setX v).y = s.y := rfl
@[simp] theorem State.setX_sp (v : Byte) : (s.setX v).sp = s.sp := rfl
@[simp] theorem State.setX_pc (v : Byte) : (s.setX v).pc = s.pc := rfl
@[simp] theorem State.setX_flags (v : Byte) : (s.setX v).flags = s.flags := rfl
@[simp] theorem State.setX_mem (v : Byte) : (s.setX v).mem = s.mem := rfl
@[simp] theorem State.setX_call (v : Byte) : (s.setX v).call = s.call := rfl
@[simp] theorem State.setX_fault (v : Byte) : (s.setX v).fault = s.fault := rfl
@[simp] theorem State.setX_initialized (v : Byte) : (s.setX v).initialized = s.initialized := rfl
@[simp] theorem State.setX_host (v : Byte) : (s.setX v).host = s.host := rfl
@[simp] theorem State.setX_result (v : Byte) : (s.setX v).result = s.result := rfl

/-! ### setY -/

@[simp] theorem State.setY_cfg (v : Byte) : (s.setY v).cfg = s.cfg := rfl
@[simp] theorem State.setY_a (v : Byte) : (s.setY v).a = s.a := rfl
@[simp] theorem State.setY_x (v : Byte) : (s.setY v).x = s.x := rfl
@[simp] theorem State.setY_y (v : Byte) : (s.setY v).y = v := rfl
@[simp] theorem State.setY_sp (v : Byte) : (s.setY v).sp = s.sp := rfl
@[simp] theorem State.setY_pc (v : Byte) : (s.setY v).pc = s.pc := rfl
@[simp] theorem State.setY_flags (v : Byte) : (s.setY v).flags = s.flags := rfl
@[simp] theorem State.setY_mem (v : Byte) : (s.setY v).mem = s.mem := rfl
@[simp] theorem State.setY_call (v : Byte) : (s.setY v).call = s.call := rfl
@[simp] theorem State.setY_fault (v : Byte) : (s.setY v).fault = s.fault := rfl
@[simp] theorem State.setY_initialized (v : Byte) : (s.setY v).initialized = s.initialized := rfl
@[simp] theorem State.setY_host (v : Byte) : (s.setY v).host = s.host := rfl
@[simp] theorem State.setY_result (v : Byte) : (s.setY v).result = s.result := rfl

/-! ### setSp -/

@[simp] theorem State.setSp_cfg (v : Byte) : (s.setSp v).cfg = s.cfg := rfl
@[simp] theorem State.setSp_a (v : Byte) : (s.setSp v).a = s.a := rfl
@[simp] theorem State.setSp_x (v : Byte) : (s.setSp v).x = s.x := rfl
@[simp] theorem State.setSp_y (v : Byte) : (s.setSp v).y = s.y := rfl
@[simp] theorem State.setSp_sp (v : Byte) : (s.setSp v).sp = v := rfl
@[simp] theorem State.setSp_pc (v : Byte) : (s.setSp v).pc = s.pc := rfl
@[simp] theorem State.setSp_flags (v : Byte) : (s.setSp v).flags = s.flags := rfl
@[simp] theorem State.setSp_mem (v : Byte) : (s.setSp v).mem = s.mem := rfl
@[simp] theorem State.setSp_call (v : Byte) : (s.setSp v).call = s.call := rfl
@[simp] theorem State.setSp_fault (v : Byte) : (s.setSp v).fault = s.fault := rfl
@[simp] theorem State.setSp_initialized (v : Byte) : (s.setSp v).initialized = s.initialized := rfl
@[simp] theorem State.setSp_host (v : Byte) : (s.setSp v).host = s.host := rfl
@[simp] theorem State.setSp_result (v : Byte) : (s.setSp v).result = s.result := rfl

/-! ### setPc -/

@[simp] theorem State.setPc_cfg (w : Word) : (s.setPc w).cfg = s.cfg := rfl
@[simp] theorem State.setPc_a (w : Word) : (s.setPc w).a = s.a := rfl
@[simp] theorem State.setPc_x (w : Word) : (s.setPc w).x = s.x := rfl
@[simp] theorem State.setPc_y (w : Word) : (s.setPc w).y = s.y := rfl
@[simp] theorem State.setPc_sp (w : Word) : (s.setPc w).sp = s.sp := rfl
@[simp] theorem State.setPc_pc (w : Word) : (s.setPc w).pc = w := rfl
@[simp] theorem State.setPc_flags (w : Word) : (s.setPc w).flags = s.flags := rfl
@[simp] theorem State.setPc_mem (w : Word) : (s.setPc w).mem = s.mem := rfl
@[simp] theorem State.setPc_call (w : Word) : (s.setPc w).call = s.call := rfl
@[simp] theorem State.setPc_fault (w : Word) : (s.setPc w).fault = s.fault := rfl
@[simp] theorem State.setPc_initialized (w : Word) : (s.setPc w).initialized = s.initialized := rfl
@[simp] theorem State.setPc_host (w : Word) : (s.setPc w).host = s.host := rfl
@[simp] theorem State.setPc_result (w : Word) : (s.setPc w).result = s.result := rfl

/-! ### setFlags -/

@[simp] theorem State.setFlags_cfg (f : Flags) : (s.setFlags f).cfg = s.cfg := rfl
@[simp] theorem State.setFlags_a (f : Flags) : (s.setFlags f).a = s.a := rfl
@[simp] theorem State.setFlags_x (f : Flags) : (s.setFlags f).x = s.x := rfl
@[simp] theorem State.setFlags_y (f : Flags) : (s.setFlags f).y = s.y := rfl
@[simp] theorem State.setFlags_sp (f : Flags) : (s.setFlags f).sp = s.sp := rfl
@[simp] theorem State.setFlags_pc (f : Flags) : (s.setFlags f).pc = s.pc := rfl
@[simp] theorem State.setFlags_flags (f : Flags) : (s.setFlags f).flags = f := rfl
@[simp] theorem State.setFlags_mem (f : Flags) : (s.setFlags f).mem = s.mem := rfl
@[simp] theorem State.setFlags_call (f : Flags) : (s.setFlags f).call = s.call := rfl
@[simp] theorem State.setFlags_fault (f : Flags) : (s.setFlags f).fault = s.fault := rfl
@[simp] theorem State.setFlags_initialized (f : Flags) : (s.setFlags f).initialized = s.initialized := rfl
@[simp] theorem State.setFlags_host (f : Flags) : (s.setFlags f).host = s.host := rfl
@[simp] theorem State.setFlags_result (f : Flags) : (s.setFlags f).result = s.result := rfl

/-! ### setMem -/

@[simp] theorem State.setMem_cfg (m : Memory) : (s.setMem m).cfg = s.cfg := rfl
@[simp] theorem State.setMem_a (m : Memory) : (s.setMem m).a = s.a := rfl
@[simp] theorem State.setMem_x (m : Memory) : (s.setMem m).x = s.x := rfl
@[simp] theorem State.setMem_y (m : Memory) : (s.setMem m).y = s.y := rfl
@[simp] theorem State.setMem_sp (m : Memory) : (s.setMem m).sp = s.sp := rfl
@[simp] theorem State.setMem_pc (m : Memory) : (s.setMem m).pc = s.pc := rfl
@[simp] theorem State.setMem_flags (m : Memory) : (s.setMem m).flags = s.flags := rfl
@[simp] theorem State.setMem_mem (m : Memory) : (s.setMem m).mem = m := rfl
@[simp] theorem State.setMem_call (m : Memory) : (s.setMem m).call = s.call := rfl
@[simp] theorem State.setMem_fault (m : Memory) : (s.setMem m).fault = s.fault := rfl
@[simp] theorem State.setMem_initialized (m : Memory) : (s.setMem m).initialized = s.initialized := rfl
@[simp] theorem State.setMem_host (m : Memory) : (s.setMem m).host = s.host := rfl
@[simp] theorem State.setMem_result (m : Memory) : (s.setMem m).result = s.result := rfl

/-! ### returns -/

@[simp] theorem State.returns_cfg (r : Result) : (s.returns r).cfg = s.cfg := rfl
@[simp] theorem State.returns_a (r : Result) : (s.returns r).a = s.a := rfl
@[simp] theorem State.returns_x (r : Result) : (s.returns r).x = s.x := rfl
@[simp] theorem State.returns_y (r : Result) : (s.returns r).y = s.y := rfl
@[simp] theorem State.returns_sp (r : Result) : (s.returns r).sp = s.sp := rfl
@[simp] theorem State.returns_pc (r : Result) : (s.returns r).pc = s.pc := rfl
@[simp] theorem State.returns_flags (r : Result) : (s.returns r).flags = s.flags := rfl
@[simp] theorem State.returns_mem (r : Result) : (s.returns r).mem = s.mem := rfl
@[simp] theorem State.returns_call (r : Result) : (s.returns r).call = s.call := rfl
@[simp] theorem State.returns_fault (r : Result) : (s.returns r).fault = s.fault := rfl
@[simp] theorem State.returns_initialized (r : Result) : (s.returns r).initialized = s.initialized := rfl
@[simp] theorem State.returns_host (r : Result) : (s.returns r).host = s.host := rfl
@[simp] theorem State.returns_result (r : Result) : (s.returns r).result = some r := rfl

/-! ### charge -/

@[simp] theorem State.charge_cfg (k : Nat) : (s.charge k).cfg = s.cfg := rfl
@[simp] theorem State.charge_a (k : Nat) : (s.charge k).a = s.a := rfl
@[simp] theorem State.charge_x (k : Nat) : (s.charge k).x = s.x := rfl
@[simp] theorem State.charge_y (k : Nat) : (s.charge k).y = s.y := rfl
@[simp] theorem State.charge_sp (k : Nat) : (s.charge k).sp = s.sp := rfl
@[simp] theorem State.charge_pc (k : Nat) : (s.charge k).pc = s.pc := rfl
@[simp] theorem State.charge_flags (k : Nat) : (s.charge k).flags = s.flags := rfl
@[simp] theorem State.charge_mem (k : Nat) : (s.charge k).mem = s.mem := rfl
@[simp] theorem State.charge_call (k : Nat) : (s.charge k).call = s.call.map (Call.charge k) := rfl
@[simp] theorem State.charge_fault (k : Nat) : (s.charge k).fault = s.fault := rfl
@[simp] theorem State.charge_initialized (k : Nat) : (s.charge k).initialized = s.initialized := rfl
@[simp] theorem State.charge_host (k : Nat) : (s.charge k).host = s.host := rfl
@[simp] theorem State.charge_result (k : Nat) : (s.charge k).result = s.result := rfl

end Sys2Proof.Machine
end

