-- ==== Sys2Proof/Laws/Ops.lean ====
section
/-!
SUPPORT. One lemma per shared operation that says everything it does, for later proofs to cite instead of unfolding
it.
-/

namespace Sys2Proof.Machine

variable (s : State)

/-! ### Charging cycles -/

@[simp] theorem Call.charge_charge (j k : Nat) (c : Call) : (c.charge j).charge k = c.charge (j + k) := by
  simp [Call.charge]
  omega

@[simp] theorem State.charge_charge (j k : Nat) : (s.charge j).charge k = s.charge (j + k) := by
  simp only [State.charge, Option.map_map]
  congr 2
  funext c
  exact Call.charge_charge j k c

@[simp] theorem State.charge_setPc (k : Nat) (w : Word) : (s.charge k).setPc w = (s.setPc w).charge k := rfl
@[simp] theorem State.charge_setSp (k : Nat) (v : Byte) : (s.charge k).setSp v = (s.setSp v).charge k := rfl
@[simp] theorem State.charge_setMem (k : Nat) (m : Memory) : (s.charge k).setMem m = (s.setMem m).charge k := rfl
@[simp] theorem State.setPc_setPc (v w : Word) : (s.setPc v).setPc w = s.setPc w := rfl

/-! ### The memory contract -/

theorem memRead_of_lt {m : Memory} {addr : Nat} (h : addr < memSize) : memRead m addr = .ok (m.get addr) :=
  if_neg (Nat.not_le.mpr h)

theorem memRead_of_le {m : Memory} {addr : Nat} (h : memSize ≤ addr) : memRead m addr = .error (.outOfRange addr) :=
  if_pos h

theorem memWrite_of_lt {m : Memory} {addr : Nat} {v : Byte} (h : addr < memSize) :
    memWrite m addr v = .ok (m.set addr v) :=
  if_neg (Nat.not_le.mpr h)

theorem memWrite_of_le {m : Memory} {addr : Nat} {v : Byte} (h : memSize ≤ addr) :
    memWrite m addr v = .error (.outOfRange addr) :=
  if_pos h

theorem memWriteWord_of_lt {m : Memory} {addr : Nat} {w : Word} (h : addr + 1 < memSize) :
    memWriteWord m addr w = .ok ((m.set addr (lo8 w)).set (addr + 1) (hi8 w)) :=
  (if_neg (by omega)).trans (if_neg (Nat.not_le.mpr h))

theorem memWriteWord_of_le {m : Memory} {addr : Nat} {w : Word} (h : memSize ≤ addr) :
    memWriteWord m addr w = .error (.outOfRange addr) :=
  if_pos h

/-! ### Reading bytes -/

@[simp] theorem State.byteAt_setPc (w ea : Word) : (s.setPc w).byteAt ea = s.byteAt ea := rfl
@[simp] theorem State.byteAt_charge (k : Nat) (ea : Word) : (s.charge k).byteAt ea = s.byteAt ea := rfl

/-- A CORE read is `MemRead`, and never raises OutOfRange (20_memory.md R46). -/
theorem memRead_word (ea : Word) : memRead s.mem ea.toNat = .ok (s.byteAt ea) :=
  memRead_of_lt (word_lt_memSize ea)

/-- A CORE write is `MemWrite`, and never raises OutOfRange (20_memory.md R46). -/
theorem memWrite_word (m : Memory) (addr : Word) (v : Byte) :
    memWrite m addr.toNat v = .ok (m.set addr.toNat v) :=
  memWrite_of_lt (word_lt_memSize addr)

theorem fetchByte_eq : fetchByte s = (s.byteAt s.pc, (s.setPc (s.pc + 1)).charge 1) := rfl

theorem fetchWord_eq :
    fetchWord s = (mkWord (s.byteAt (s.pc + 1)) (s.byteAt s.pc), (s.setPc (s.pc + 2)).charge 2) := by
  simp [fetchWord, fetchByte_eq, BitVec.add_assoc]

theorem fetchOperand_ldaImm :
    fetchOperand .ldaImm s = (.ldaImm (s.byteAt s.pc), (s.setPc (s.pc + 1)).charge 1) := rfl

theorem fetchOperand_ldaZp :
    fetchOperand .ldaZp s = (.ldaZp (s.byteAt s.pc), (s.setPc (s.pc + 1)).charge 1) := rfl

theorem fetchOperand_ldaZpx :
    fetchOperand .ldaZpx s = (.ldaZpx (s.byteAt s.pc), (s.setPc (s.pc + 1)).charge 1) := rfl

theorem fetchOperand_jsrAbs :
    fetchOperand .jsrAbs s =
      (.jsr (mkWord (s.byteAt (s.pc + 1)) (s.byteAt s.pc)), (s.setPc (s.pc + 2)).charge 2) := by
  simp [fetchOperand, operandAbs, fetchWord_eq]

/-! ### The load of A -/

/-- Everything `loadA` does: A, Z and N. -/
theorem loadA_eq (v : Byte) : loadA v s = (s.setA v).setFlags (setZN v s.flags) := rfl

/-- N is 1 exactly when `v ≥ 0x80` (40_engine.md R90). -/
theorem setZN_n (v : Byte) (f : Flags) : (setZN v f).n = decide (128 ≤ v.toNat) := by
  change v.getLsbD 7 = _
  revert v
  decide

/-! ### Pushing a return address -/

@[simp] theorem stackAddr_toNat (sp : Byte) : (stackAddr sp).toNat = 256 + sp.toNat := by
  have := sp.isLt
  simp only [stackAddr, BitVec.toNat_add, zext16_toNat]
  change (256 + sp.toNat) % 65536 = _
  omega

theorem writeByte_eq (addr : Word) (v : Byte) :
    writeByte addr v s = (s.setMem (s.mem.set addr.toNat v)).charge 1 := rfl

theorem pushReturnDescending_eq (ret : Word) :
    pushReturnDescending ret s =
      ((s.setMem ((s.mem.set (stackAddr s.sp).toNat (hi8 ret)).set (stackAddr (s.sp - 1)).toNat (lo8 ret))).setSp
        (s.sp - 2)).charge 2 := by
  have h : s.sp - 1 - 1 = s.sp - 2 := by rw [BitVec.sub_sub]; rfl
  unfold pushReturnDescending pushByte
  simp only [writeByte_eq, State.charge_setSp, State.charge_setMem, State.charge_sp, State.setMem_sp,
    State.setSp_sp, State.charge_mem, State.setSp_mem, State.setMem_mem, State.charge_charge, h]
  rfl

theorem pushReturnLegacy_eq (ret : Word) :
    pushReturnLegacy ret s =
      (s.setMem ((s.mem.set (zext16 s.sp).toNat (lo8 ret)).set (zext16 s.sp + 1).toNat (hi8 ret))).charge 2 := by
  simp only [pushReturnLegacy, writeByte_eq, State.charge_setMem, State.charge_mem, State.setMem_mem,
    State.charge_charge]
  rfl

/-! ### The canonical form of memory -/

theorem writeByte_wf (addr : Word) (v : Byte) (h : s.mem.wf) : (writeByte addr v s).mem.wf :=
  Memory.set_wf _ _ _ h (word_lt_memSize addr)

theorem pushReturn_wf (ret : Word) (h : s.mem.wf) : (pushReturn ret s).mem.wf := by
  unfold pushReturn
  split
  · exact writeByte_wf _ _ _ (writeByte_wf _ _ _ h)
  · exact writeByte_wf _ _ _ (writeByte_wf _ _ _ h)

/-! ### The end of a call, and reset -/

theorem returnCompleted_of_call {s : State} {c : Call} (hc : s.call = some c) :
    returnCompleted s = { s with call := none, result := some (.completed (c.budget - c.cyc)) } := by
  simp [returnCompleted, State.consumed, hc, Call.consumed]

theorem takeFault_of_call {s : State} {c : Call} (f : Fault) (hc : s.call = some c) :
    takeFault f s =
      { s with fault := some f, call := none, result := some (.faulted f (c.budget - c.cyc)) } := by
  simp [takeFault, State.consumed, hc, Call.consumed]

theorem resetMachine_eq :
    resetMachine s = { State.resetAt s.cfg with host := s.host, result := s.result } := rfl

end Sys2Proof.Machine
end

