-- ==== Sys2Proof/Laws/Step.lean ====
section
/-!
SUPPORT. What a step can do, said once: the body of the execute loop, and the step around it.
-/

namespace Sys2Proof.Machine

variable (s : State)

/-- The state after JSR to `target`, from the state with PC one past the instruction. -/
def jsrNext (target : Word) (s : State) : State := ((pushReturn (s.pc - 1) s).charge 1).setPc target

/-- Everything the loop's body can do: it always answers a next state, which is that of the fault of an opcode
without a handler, or that of one of the four instructions with its bytes read from PC on. -/
theorem loopBody_cases : ∃ t, loopBody s = .next t ∧
    ((decodeOpcode (s.byteAt s.pc) = none ∧
        t = takeFault (.unrecognizedInstruction (s.byteAt s.pc) s.pc) ((s.setPc (s.pc + 1)).charge 1)) ∨
      (s.byteAt s.pc = opcodeLdaImm ∧ t = loadA (s.byteAt (s.pc + 1)) ((s.setPc (s.pc + 2)).charge 2)) ∨
      (s.byteAt s.pc = opcodeLdaZp ∧
        t = loadA (s.byteAt (eaZp (s.byteAt (s.pc + 1)))) ((s.setPc (s.pc + 2)).charge 3)) ∨
      (s.byteAt s.pc = opcodeLdaZpx ∧
        t = loadA (s.byteAt (zext16 (s.byteAt (s.pc + 1) + s.x))) ((s.setPc (s.pc + 2)).charge 4)) ∨
      (s.byteAt s.pc = opcodeJsr ∧
        t = jsrNext (mkWord (s.byteAt (s.pc + 2)) (s.byteAt (s.pc + 1))) ((s.setPc (s.pc + 3)).charge 3))) := by
  unfold loopBody
  simp only [fetchByte_eq]
  cases hd : decodeOpcode (s.byteAt s.pc) with
  | none => exact ⟨_, rfl, .inl ⟨rfl, rfl⟩⟩
  | some h =>
    have hop := (decodeOpcode_eq_some _ _).mp hd
    cases h with
    | ldaImm =>
      refine ⟨_, rfl, .inr (.inl ⟨hop, ?_⟩)⟩
      simp [fetchOperand_ldaImm, BitVec.add_assoc]
    | ldaZp =>
      refine ⟨_, rfl, .inr (.inr (.inl ⟨hop, ?_⟩))⟩
      simp [fetchOperand_ldaZp, BitVec.add_assoc]
    | ldaZpx =>
      refine ⟨_, rfl, .inr (.inr (.inr (.inl ⟨hop, ?_⟩)))⟩
      simp [fetchOperand_ldaZpx, tick, BitVec.add_assoc]
    | jsrAbs =>
      refine ⟨_, rfl, .inr (.inr (.inr (.inr ⟨hop, ?_⟩)))⟩
      simp [fetchOperand_jsrAbs, jsrNext, tick, BitVec.add_assoc]

theorem step_running {c : Call} (hc : s.call = some c) (h : 0 < c.cyc) : step s = loopBody s := by
  simp [step, hc, h]

theorem step_returns {c : Call} (hc : s.call = some c) (h : ¬ 0 < c.cyc) : step s = .next (returnCompleted s) := by
  simp [step, hc, h]

theorem step_between (hc : s.call = none) : step s = betweenCommands s := by
  simp [step, hc]

end Sys2Proof.Machine
end

