-- ==== Sys2Proof/Laws/HostInterface.lean ====
section
/-!
SUPPORT. What a command of the host can do, said once, and the steps between commands and of a run.
-/

namespace Sys2Proof.Machine

variable (s : State)

@[simp] theorem State.writeReg_cfg (r : Reg) (v : Byte) : (s.writeReg v r).cfg = s.cfg := by cases r <;> rfl
@[simp] theorem State.writeReg_pc (r : Reg) (v : Byte) : (s.writeReg v r).pc = s.pc := by cases r <;> rfl
@[simp] theorem State.writeReg_flags (r : Reg) (v : Byte) : (s.writeReg v r).flags = s.flags := by cases r <;> rfl
@[simp] theorem State.writeReg_mem (r : Reg) (v : Byte) : (s.writeReg v r).mem = s.mem := by cases r <;> rfl
@[simp] theorem State.writeReg_call (r : Reg) (v : Byte) : (s.writeReg v r).call = s.call := by cases r <;> rfl
@[simp] theorem State.writeReg_fault (r : Reg) (v : Byte) : (s.writeReg v r).fault = s.fault := by cases r <;> rfl
@[simp] theorem State.writeReg_initialized (r : Reg) (v : Byte) :
    (s.writeReg v r).initialized = s.initialized := by cases r <;> rfl
@[simp] theorem State.writeReg_host (r : Reg) (v : Byte) : (s.writeReg v r).host = s.host := by cases r <;> rfl
@[simp] theorem State.writeReg_result (r : Reg) (v : Byte) : (s.writeReg v r).result = s.result := by
  cases r <;> rfl

theorem State.readReg_writeReg (r q : Reg) (v : Byte) :
    (s.writeReg v r).readReg q = if q = r then v else s.readReg q := by
  cases r <;> cases q <;> rfl

theorem Flags.read_write (f : Flags) (p q : Flag) (e : Bool) :
    (f.write e p).read q = if q = p then e else f.read q := by
  cases p <;> cases q <;> rfl

/-- Everything a command that answers a next state can do: reset the machine, start an `execute` call, write one
register, PC, one flag or memory, or only return a value. -/
theorem runCommand_cases {c : Command} {s t : State} (h : runCommand c s = .next t) :
    (c = .reset ∧ t = (resetMachine s).returns .done) ∨
    (∃ b : Nat, c = .execute b ∧ s.initialized = true ∧ s.fault = none ∧
      t = { s with call := some { budget := b, cyc := b } }) ∨
    (∃ r v, c = .writeReg r v ∧ t = (s.writeReg v r).returns .done) ∨
    (∃ w, c = .writePc w ∧ t = (s.setPc w).returns .done) ∨
    (∃ f e, c = .writeFlag f e ∧ t = (s.setFlags (s.flags.write e f)).returns .done) ∨
    (∃ m, (s.mem.wf → m.wf) ∧ t = (s.setMem m).returns .done) ∨
    ∃ r, t = s.returns r := by
  have read : ∀ {r : Result} {u : State}, readReturns r u = .next t → t = u.returns r := by
    intro r u h
    unfold readReturns at h
    split at h
    · exact (Host.Outcome.next.inj h).symm
    · cases h
  have write : ∀ {r : Except Fault Memory}, writeReturns r s = .next t → (∀ m, r = .ok m → s.mem.wf → m.wf) →
      (∃ m, (s.mem.wf → m.wf) ∧ t = (s.setMem m).returns .done) ∨ ∃ r, t = s.returns r := by
    intro r h hwf
    cases r with
    | ok m => exact .inl ⟨m, hwf m rfl, (Host.Outcome.next.inj h).symm⟩
    | error f => exact .inr ⟨_, (Host.Outcome.next.inj h).symm⟩
  cases c with
  | reset => exact .inl ⟨rfl, (Host.Outcome.next.inj h).symm⟩
  | execute b =>
    simp only [runCommand, beginExecute] at h
    split at h
    · split at h
      · cases h
      · split at h
        · exact .inr (.inr (.inr (.inr (.inr (.inr ⟨_, (Host.Outcome.next.inj h).symm⟩)))))
        · exact .inr (.inl ⟨_, rfl, ‹_›, ‹_›, (Host.Outcome.next.inj h).symm⟩)
    · cases h
  | readReg r => exact .inr (.inr (.inr (.inr (.inr (.inr ⟨_, read h⟩)))))
  | writeReg r v => exact .inr (.inr (.inl ⟨r, v, rfl, (Host.Outcome.next.inj h).symm⟩))
  | readPc => exact .inr (.inr (.inr (.inr (.inr (.inr ⟨_, read h⟩)))))
  | writePc w => exact .inr (.inr (.inr (.inl ⟨w, rfl, (Host.Outcome.next.inj h).symm⟩)))
  | readFlag f => exact .inr (.inr (.inr (.inr (.inr (.inr ⟨_, read h⟩)))))
  | writeFlag f e => exact .inr (.inr (.inr (.inr (.inl ⟨f, e, rfl, (Host.Outcome.next.inj h).symm⟩))))
  | memRead addr =>
    simp only [runCommand] at h
    split at h <;> exact .inr (.inr (.inr (.inr (.inr (.inr ⟨_, (Host.Outcome.next.inj h).symm⟩)))))
  | memWrite addr v =>
    exact .inr (.inr (.inr (.inr (.inr (write h fun m hm hwf => memWrite_wf hwf hm)))))
  | memWriteWord addr w =>
    exact .inr (.inr (.inr (.inr (.inr (write h fun m hm hwf => memWriteWord_wf hwf hm)))))
  | memInit =>
    exact .inr (.inr (.inr (.inr (.inr (.inl ⟨Memory.zero, fun _ => Memory.wf_zero, (Host.Outcome.next.inj h).symm⟩)))))

theorem storeBytes_wf (addr : Word) (bytes : List Byte) (m : Memory) (h : m.wf) :
    (storeBytes addr bytes m).wf := by
  induction bytes generalizing addr m with
  | nil => exact h
  | cons v vs ih => exact ih _ _ (Memory.set_wf _ _ _ h (word_lt_memSize addr))

/-- A step between commands, with a command pending. -/
theorem step_issues {s : State} {cmd : Command} {rest : List Command} (h : s.Issues cmd rest) :
    step s = runCommand cmd { s with host := rest, result := none } := by
  rw [step_between s h.1]
  unfold betweenCommands
  rw [h.2]

/-- A step between commands, with none pending. -/
theorem step_idle {s : State} (hc : s.call = none) (hh : s.host = []) :
    step s = match s.fault with
      | some f => .fault f
      | none => .next s := by
  rw [step_between s hc]
  cases hf : s.fault <;> simp [betweenCommands, hh, hf]

@[simp] theorem run_zero : run 0 s = .next s := rfl

theorem run_succ (k : Nat) :
    run (k + 1) s = match step s with
      | .next t => run k t
      | .fault f => .fault f
      | .refused r => .refused r := by
  cases h : step s <;> simp only [run, Host.Core.run] <;> rw [show Sys2Proof.core.step s = _ from h] <;> rfl

end Sys2Proof.Machine
end

