-- ==== Sys2Proof/Laws/PerInstr.lean ====
section
/-!
SUPPORT. What holds of every instruction as syntax, one lemma per constructor. The family `EncodingForm`: the bytes
of an instruction have the form 30_encoding.md R60 gives its opcode, as `encodingWf` reads it from the tables.
-/

namespace Sys2Proof.Laws.EncodingForm

def Statement (i : Instr) : Prop := encodingWf (encode i) = true

theorem ldaImm (imm8 : Byte) : Statement (.ldaImm imm8) := by simp [Statement, encode, encodingWf, opcodeLdaImm]

theorem ldaZp (zp : Byte) : Statement (.ldaZp zp) := by simp [Statement, encode, encodingWf, opcodeLdaZp]

theorem ldaZpx (zp : Byte) : Statement (.ldaZpx zp) := by simp [Statement, encode, encodingWf, opcodeLdaZpx]

theorem jsr (target : Word) : Statement (.jsr target) := by simp [Statement, encode, encodingWf, opcodeJsr]

end Sys2Proof.Laws.EncodingForm
end

