-- ==== Sys2Proof/Tests/Slice0.lean ====
section
/-!
SUPPORT. Tests, each expected result taken from spec/ (30_encoding.md R60 to R68, 95_test_vectors.md), and one
witness per statement with hypotheses: a state and operands that meet all of them together.
-/

namespace Sys2Proof.Tests

open Sys2Proof.Machine

/-! ### Decoding: words written out bit by bit from the encodings of spec/opcode_table.json -/

theorem test_decode_ldaImm : decode [0b10101001, 0b01000010] = .ok (.ldaImm 0x42, []) := by decide

theorem test_decode_ldaZp : decode [0b10100101, 0b11111111] = .ok (.ldaZp 0xFF, []) := by decide

theorem test_decode_ldaZpx : decode [0b10110101, 0b10000000] = .ok (.ldaZpx 0x80, []) := by decide

theorem test_decode_jsr : decode [0b00100000, 0b00110100, 0b00010010] = .ok (.jsr 0x1234, []) := by decide

/-- 0x60 and 0xEA are unrecognized (30_encoding.md R65), and so is 0x00. -/
theorem test_decode_rejects :
    decode [0x60, 0, 0] = .error (.unrecognized 0x60) ∧ decode [0xEA] = .error (.unrecognized 0xEA) ∧
    decode [0x00, 0xA9] = .error (.unrecognized 0x00) ∧ decode [0x20, 0x34] = .error .truncated := by decide

/-- Exactly 252 opcode bytes are unrecognized (30_encoding.md R65). -/
theorem test_decode_252_unrecognized :
    ((List.range 256).filter fun n => (decodeOpcode (BitVec.ofNat 8 n)).isNone).length = 252 := by
  decide +kernel

theorem test_table_word_jsr : decodeTableWord 24 0x123420 = some (.jsr 0x1234) := by decide

/-- The bits above the table's are 0. -/
theorem test_table_word_short : decodeTableWord 8 0x7720 = some (.jsr 0x0000) := by decide

/-! ### Well-formedness: an ill-formed encoding for each check -/

theorem smoke_wf_unknown_opcode : encodingWf [0xEA, 0x00] = false := by decide
theorem smoke_wf_too_short : encodingWf [0xA9] = false := by decide
theorem smoke_wf_too_long : encodingWf [0xA5, 0x42, 0x00] = false := by decide
theorem smoke_wf_jsr_short : encodingWf [0x20, 0x34] = false := by decide
theorem smoke_wf_empty : encodingWf [] = false := by decide
theorem smoke_wf_instr : (Instr.jsr 0xFFFF).wf = true ∧ encodingWf (encode (.jsr 0xFFFF)) = true := by decide

/-! ### Steps -/

/-- `f` of the next state, if there is one. -/
def after {α : Type} (o : Host.Outcome State Fault Refusal) (f : State → α) : Option α :=
  match o with
  | .next s => some (f s)
  | .fault _ => none
  | .refused _ => none

/-- S0 of 95_test_vectors.md with these cells, inside an `execute` call of budget 1 about to start an instruction. -/
def ready (cells : Memory) : State := { State.reset with mem := cells, call := some { budget := 1, cyc := 1 } }

/-- `ready` under `JSR_STACK` = `LEGACY`. -/
def readyLegacy (cells : Memory) : State := { ready cells with cfg := { resetSp := 0xFF, jsrStack := .legacy } }

/-- S0 between commands, with these commands pending. -/
def hosted (cmds : List Command) : State := { State.reset with host := cmds }

/-- Vector I-4: the other flags stay. -/
theorem test_ldaImm_flags :
    after (step { ready [(0xFFFC, 0xA9), (0xFFFD, 0xFF)] with flags := ⟨true, true, true, true, true, true, false⟩ })
      (fun t => (t.a, t.flags, t.pc)) = some (0xFF, ⟨true, false, true, true, true, true, true⟩, 0xFFFE) := by decide

/-- Vector I-5: the operand at 0x0000 after the wrap. -/
theorem test_ldaImm_wraps :
    after (step { ready [(0x0000, 0x55), (0xFFFF, 0xA9)] with pc := 0xFFFF })
      (fun t => (t.a, t.pc, t.call)) = some (0x55, 0x0001, some ⟨1, -1⟩) := by decide

/-- Vector L1-6: the overshoot. -/
theorem test_ldaZp_overshoot :
    after (step (ready [(0x0010, 0x80), (0xFFFC, 0xA5), (0xFFFD, 0x10)]))
      (fun t => (t.a, t.flags.n, t.flags.z, t.call)) = some (0x80, true, false, some ⟨1, -2⟩) := by decide

/-- Vector Z-2: 0x00FF, never 0x0100. -/
theorem test_ldaZp_page_end :
    after (step (ready [(0x00FF, 0x22), (0x0100, 0x11), (0xFFFC, 0xA5), (0xFFFD, 0xFF)]))
      (fun t => (t.a, t.pc)) = some (0x22, 0xFFFE) := by decide

/-- Vector L1-4: the index wraps inside page 0. -/
theorem test_ldaZpx_wraps :
    after (step { ready [(0x007F, 0x37), (0x017F, 0x99), (0xFFFC, 0xB5), (0xFFFD, 0x80)] with x := 0xFF })
      (fun t => (t.a, t.x, t.call)) = some (0x37, 0xFF, some ⟨1, -3⟩) := by decide

/-- Vector X-7: 0x0000, never 0x0100. -/
theorem test_ldaZpx_exact_wrap :
    after (step { ready [(0x0100, 0x44), (0xFFFC, 0xB5), (0xFFFD, 0xFF)] with x := 0x01 })
      (fun t => (t.a, t.flags.z, t.flags.n)) = some (0x00, true, false) := by decide

/-- Vector J-4: the push wraps inside page 1. -/
theorem test_jsr_descending :
    after (step { ready [(0xFFFC, 0x20), (0xFFFE, 0x80)] with sp := 0x00 })
      (fun t => (t.pc, t.sp, t.mem.get 0x0100, t.mem.get 0x01FF, t.call)) =
      some (0x8000, 0xFE, 0xFF, 0xFE, some ⟨1, -5⟩) := by decide

/-- Vector J-7: LEGACY. -/
theorem test_jsr_legacy :
    after (step (readyLegacy [(0xFFFC, 0x20), (0xFFFE, 0x80)]))
      (fun t => (t.pc, t.sp, t.mem.get 0x00FF, t.mem.get 0x0100)) = some (0x8000, 0xFF, 0xFE, 0xFF) := by decide

/-- Vector U-2. -/
theorem test_unrecognized :
    after (step (ready [(0xFFFC, 0xEA)])) (fun t => (t.pc, t.fault, t.call, t.result)) =
      some (0xFFFD, some (.unrecognizedInstruction 0xEA 0xFFFC), none,
        some (.faulted (.unrecognizedInstruction 0xEA 0xFFFC) 1)) := by decide

/-- Vector L1-7: a word write at 0xFFFF changes nothing. -/
theorem test_host_write_word_at_top :
    after (step { hosted [.memWriteWord 0xFFFF 0xBEEF] with mem := [(0xFFFF, 0x5A)] })
      (fun t => (t.mem, t.result)) = some ([(0xFFFF, 0x5A)], some (.error (.outOfRange 65536))) := by decide

/-- Vector L1-7: a word write at 0xFFFE is little-endian. -/
theorem test_host_write_word :
    after (step (hosted [.memWriteWord 0xFFFE 0xBEEF])) (fun t => t.mem) =
      some [(0xFFFE, 0xEF), (0xFFFF, 0xBE)] := by decide

/-- Vector R-3 and L1-1: reset under `RESET_SP` = 0xFD, from a state with other contents and a held fault. -/
theorem test_reset :
    after (step { hosted [.reset] with
        cfg := { resetSp := 0xFD, jsrStack := .descending }, a := 0x77, mem := [(0x1234, 0x55)],
        fault := some (.unrecognizedInstruction 0x00 0xFFFC) }) (fun t => (t.a, t.sp, t.pc, t.mem.get 0x1234, t.fault)) =
      some (0x00, 0xFD, 0xFFFC, 0x00, none) := by decide

/-- Vector E-6: `execute` before the first reset is refused. -/
theorem test_execute_before_reset :
    step { State.constructed Config.default [] with host := [.execute 5] } = .refused .notInitialized := rfl

/-- The next step after `withFetchWord` runs the instruction. -/
theorem test_withFetchWord :
    after (step (State.reset.withFetchWord 16 0x80A9)) (fun t => (t.a, t.flags.n, t.pc)) =
      some (0x80, true, 0xFFFE) := by decide

/-! ### Witnesses for the statements' hypotheses -/

abbrev one : Call := { budget := 1, cyc := 1 }

/-- `A9 80` at the reset PC. -/
abbrev wImm : State := ready [(0xFFFC, 0xA9), (0xFFFD, 0x80)]
/-- `A5 42` at the reset PC. -/
abbrev wZp : State := ready [(0xFFFC, 0xA5), (0xFFFD, 0x42)]
/-- `B5 80` at the reset PC. -/
abbrev wZpx : State := ready [(0xFFFC, 0xB5), (0xFFFD, 0x80)]
/-- `20 00 80` at the reset PC. -/
abbrev wJsr : State := ready [(0xFFFC, 0x20), (0xFFFE, 0x80)]
abbrev wJsrLegacy : State := readyLegacy [(0xFFFC, 0x20), (0xFFFE, 0x80)]
/-- Nothing placed: 0x00 at the reset PC. -/
abbrev wBad : State := ready []

theorem witness_EncodeInvertsDecode : decode [0x20, 0x34, 0x12, 0xFF] = .ok (.jsr 0x1234, [0xFF]) := by decide

theorem witness_StepRunsDecodedInstruction :
    (wImm.Starts one ∧ decode (wImm.bytesFrom wImm.pc 3) = .ok (.ldaImm 0x80, [0x00])) ∧
    (wJsr.Starts one ∧ decode (wJsr.bytesFrom wJsr.pc 3) = .ok (.jsr 0x8000, [])) := by decide

theorem witness_UnrecognizedOpcodeFaults :
    wBad.Starts one ∧ wBad.byteAt wBad.pc ∉ [0xA9#8, 0xA5#8, 0xB5#8, 0x20#8] := by decide

/-- Both sides of the guard, at 0 and at 1. -/
theorem witness_LoopGuardIsTheOnlyBudgetTest :
    (({ State.reset with call := some { budget := 1, cyc := 0 } } : State).call = some { budget := 1, cyc := 0 } ∧
      (0 : Int) ≤ 0) ∧ (0 : Int) < one.cyc ∧ (0 : Int) < (⟨9, 9⟩ : Call).cyc := by decide

/-- An instruction that completes, and one that faults. -/
theorem witness_StartedInstructionCompletesOrFaults :
    (wZp.Starts one ∧ wZp.byteAt wZp.pc ∈ [0xA9#8, 0xA5#8, 0xB5#8, 0x20#8]) ∧
    (wBad.Starts one ∧ wBad.byteAt wBad.pc ∉ [0xA9#8, 0xA5#8, 0xB5#8, 0x20#8]) := by decide

theorem witness_ReadByteLeavesPc : wZp.call = some one := by decide

theorem witness_CycleCosts :
    (wImm.Starts one ∧ wImm.byteAt wImm.pc = 0xA9 ∧ after (step wImm) State.call = some (some ⟨1, -1⟩)) ∧
    (wZp.Starts one ∧ wZp.byteAt wZp.pc = 0xA5 ∧ after (step wZp) State.call = some (some ⟨1, -2⟩)) ∧
    (wZpx.Starts one ∧ wZpx.byteAt wZpx.pc = 0xB5 ∧ after (step wZpx) State.call = some (some ⟨1, -3⟩)) ∧
    (wJsr.Starts one ∧ wJsr.byteAt wJsr.pc = 0x20 ∧ after (step wJsr) State.call = some (some ⟨1, -5⟩)) ∧
    (wBad.Starts one ∧ wBad.byteAt wBad.pc = 0x00 ∧ after (step wBad) State.call = some none) := by decide

theorem witness_PcWrapsAtTheTop : ({ State.reset with pc := 0xFFFF } : State).pc = 0xFFFF := rfl

theorem witness_LdaImmediateStep : wImm.Starts one ∧ wImm.byteAt wImm.pc = 0xA9 := by decide
theorem witness_LdaZeroPageStep : wZp.Starts one ∧ wZp.byteAt wZp.pc = 0xA5 := by decide
theorem witness_LdaZeroPageXStep : wZpx.Starts one ∧ wZpx.byteAt wZpx.pc = 0xB5 := by decide

theorem witness_LdaFrame :
    (∃ t, exec (.ldaImm 0x80) State.reset = .next t) ∧ (∃ t, exec (.ldaZp 0x80) State.reset = .next t) ∧
    (∃ t, exec (.ldaZpx 0x80) State.reset = .next t) := ⟨⟨_, rfl⟩, ⟨_, rfl⟩, ⟨_, rfl⟩⟩

theorem witness_JsrDescendingEffect : wJsr.cfg.jsrStack = .descending := rfl
theorem witness_JsrLegacyEffect : wJsrLegacy.cfg.jsrStack = .legacy := rfl

theorem witness_JsrStep_and_JsrTotals :
    (wJsr.Starts one ∧ wJsr.byteAt wJsr.pc = 0x20 ∧ wJsr.cfg.jsrStack = .descending) ∧
    (wJsrLegacy.Starts one ∧ wJsrLegacy.byteAt wJsrLegacy.pc = 0x20 ∧ wJsrLegacy.cfg.jsrStack = .legacy) := by
  decide

/-- Both conventions, and an address outside the bytes each stores: 0x01FE and 0x01FF, 0x00FF and 0x0100. -/
theorem witness_JsrFrame :
    (∃ t, exec (.jsr 0x8000) wJsr = .next t) ∧ wJsr.cfg.jsrStack = .descending ∧
    0x01FD ≠ (stackAddr wJsr.sp).toNat ∧ 0x01FD ≠ (stackAddr (wJsr.sp - 1)).toNat ∧
    (∃ t, exec (.jsr 0x8000) wJsrLegacy = .next t) ∧ wJsrLegacy.cfg.jsrStack = .legacy ∧
    0x0101 ≠ (zext16 wJsrLegacy.sp).toNat ∧ 0x0101 ≠ (zext16 wJsrLegacy.sp + 1).toNat :=
  ⟨⟨_, rfl⟩, rfl, by decide, by decide, ⟨_, rfl⟩, rfl, by decide, by decide⟩

/-- SP at 0x01 and at 0x00, and the addresses on either side of page 1. -/
theorem witness_DescendingPush :
    wJsr.cfg.jsrStack = .descending ∧ ({ wJsr with sp := 0x01 } : State).sp ≠ 0 ∧
    ({ wJsr with sp := 0x00 } : State).sp = 0 ∧ 0x00FF < 0x0100 ∧ 0x01FF < 0x0200 := by decide

/-- SP at 0xFF, whose push reaches 0x0100, and the first address above it. -/
theorem witness_LegacyPush : wJsrLegacy.cfg.jsrStack = .legacy ∧ wJsrLegacy.sp = 0xFF ∧ 0x0100 < 0x0101 := by decide

/-- The first address above the bytes either convention stores with SP = 0xFF, and the last below them. -/
theorem witness_StackConventionsAgreeElsewhere :
    ∀ addr ∈ [0x0200, 0x00FE], addr ≠ (stackAddr wJsr.sp).toNat ∧ addr ≠ (stackAddr (wJsr.sp - 1)).toNat ∧
      addr ≠ (zext16 wJsr.sp).toNat ∧ addr ≠ (zext16 wJsr.sp + 1).toNat := by decide

/-- Program P4 of 95_test_vectors.md: the JSR at 0x01FC whose push lands on its own target. -/
theorem witness_PushOnTheTargetIsFetched :
    let s : State := { ready [(0x01FC, 0x20), (0x01FD, 0xFE), (0x01FE, 0x01)] with pc := 0x01FC }
    s.Starts one ∧ s.cfg.jsrStack = .descending ∧ s.byteAt s.pc = 0x20 ∧
    256 * (s.byteAt (s.pc + 2)).toNat + (s.byteAt (s.pc + 1)).toNat = 0x0100 + (s.sp - 1).toNat := by decide

theorem witness_InstructionsWriteOnlyTheirState :
    (wJsr.Starts one ∧ (∃ t, step wJsr = .next t) ∧ wJsr.byteAt wJsr.pc ∉ [0xA9#8, 0xA5#8, 0xB5#8]) ∧
    (wJsrLegacy.Starts one ∧ (∃ t, step wJsrLegacy = .next t) ∧ wJsrLegacy.cfg.jsrStack = .legacy) ∧
    (wImm.Starts one ∧ (∃ t, step wImm = .next t) ∧ wImm.byteAt wImm.pc ≠ 0x20) :=
  ⟨⟨by decide, ⟨_, rfl⟩, by decide⟩, ⟨by decide, ⟨_, rfl⟩, rfl⟩, ⟨by decide, ⟨_, rfl⟩, by decide⟩⟩

theorem witness_OnlyResetAndHostWriteXYCIDBV :
    (wImm.call ≠ none ∧ ∃ t, step wImm = .next t) ∧
    (after (step (hosted [.writeReg .x 0xFF])) State.x = some 0xFF ∧ State.reset.x ≠ 0xFF) ∧
    (after (step (hosted [.writeReg .y 0x01])) State.y = some 0x01 ∧ State.reset.y ≠ 0x01) ∧
    (after (step (hosted [.writeFlag .v true])) (fun t => t.flags.read .v) = some true ∧
      State.reset.flags.read .v ≠ true) :=
  ⟨⟨by decide, ⟨_, rfl⟩⟩, by decide, by decide, by decide⟩

theorem witness_InitializedAndConfigStay :
    (State.reset.initialized = true ∧ ∃ t, step State.reset = .next t) ∧
    ({ State.constructed Config.default [] with host := [.reset] } : State).initialized = false ∧
    after (step { State.constructed Config.default [] with host := [.reset] }) State.initialized = some true :=
  ⟨⟨rfl, ⟨_, rfl⟩⟩, rfl, by decide⟩

theorem witness_CanonicalMemoriesThatReadAlikeAreEqual :
    Memory.wf [(0x0000, 0x01), (0xFFFF, 0xFF)] ∧
    Memory.set (Memory.set Memory.zero 0xFFFF 0xFF) 0x0000 0x01 = [(0x0000, 0x01), (0xFFFF, 0xFF)] ∧
    Memory.set [(0x0010, 0x01)] 0x0010 0x00 = Memory.zero := by decide

/-- A host command that is next: the last address and the first that does not exist. -/
theorem witness_HostMemoryRead :
    (hosted [.memRead 65535]).Issues (.memRead 65535) [] ∧ (hosted [.memRead 65536]).Issues (.memRead 65536) [] := by
  decide

theorem witness_HostMemoryWrite :
    (hosted [.memWrite 65535 1]).Issues (.memWrite 65535 1) [] ∧
    (hosted [.memWrite 65536 1]).Issues (.memWrite 65536 1) [] := by decide

theorem witness_HostMemoryWriteWord :
    (hosted [.memWriteWord 65534 1]).Issues (.memWriteWord 65534 1) [] ∧ 65534 + 1 < 65536 ∧
    (hosted [.memWriteWord 65535 1]).Issues (.memWriteWord 65535 1) [] ∧
    (hosted [.memWriteWord 65536 1]).Issues (.memWriteWord 65536 1) [] := by decide

theorem witness_HostMemoryInit : (hosted [.memInit, .reset]).Issues .memInit [.reset] := by decide

theorem witness_ResetCommand : (hosted [.reset]).Issues .reset [] := by decide

theorem witness_ResetThenExecuteFaultsAtTheResetPc :
    0 < 1 ∧ (hosted [.reset, .execute (1 : Nat)]).Issues .reset [.execute (1 : Nat)] := by decide

/-- Before the first reset, with a negative budget, and with neither. -/
theorem witness_ExecutePreconditions :
    ({ State.constructed Config.default [] with host := [.execute 5] } : State).Issues (.execute 5) [] ∧
    (State.constructed Config.default []).initialized = false ∧
    (hosted [.execute (-1)]).Issues (.execute (-1)) [] ∧ (-1 : Int) < 0 ∧
    (hosted [.execute 0]).Issues (.execute 0) [] := by decide

theorem witness_ExecuteStarts_and_ExecuteZeroChangesNothing :
    (hosted [.execute (7 : Nat)]).Issues (.execute (7 : Nat)) [] ∧ (hosted [.execute 0]).Issues (.execute 0) [] ∧
    (hosted [.execute 0]).initialized = true ∧ (hosted [.execute 0]).fault = none := by decide

/-- A held fault, with `execute` next, and with reset next, which clears it. -/
theorem witness_HeldFaultStaysUntilReset :
    let f := Fault.unrecognizedInstruction 0x00 0xFFFC
    let s := { hosted [.execute (10 : Nat)] with fault := some f }
    (s.initialized = true ∧ s.call = none ∧ s.fault = some f ∧ s.host = [.execute (10 : Nat)]) ∧
    after (step { s with host := [.reset] }) State.fault = some none := by decide

theorem witness_HostRegisterAccess :
    (hosted [.writeReg .x 0xFF, .readReg .x]).call = none ∧ (hosted []).initialized = true ∧
    (hosted [.writeReg .x 0xFF, .readReg .x]).host = [.writeReg .x 0xFF, .readReg .x] ∧
    (hosted [.writePc 0xFFFF, .readPc]).host = [.writePc 0xFFFF, .readPc] ∧
    (hosted [.writeFlag .c true, .readFlag .c]).host = [.writeFlag .c true, .readFlag .c] := by decide

/-- Each of the stops is reached, and, where the two refusals meet, the one of log 15. -/
theorem witness_StepStopsExactlyHere :
    step { State.reset with fault := some (.unrecognizedInstruction 0x00 0xFFFC) } =
      .fault (.unrecognizedInstruction 0x00 0xFFFC) ∧
    step { State.constructed Config.default [] with host := [.readPc] } = .refused .notInitialized ∧
    step (hosted [.execute (-1)]) = .refused .negativeBudget ∧
    step { State.constructed Config.default [] with host := [.execute (-1)] } = .refused .notInitialized :=
  ⟨rfl, rfl, rfl, rfl⟩

theorem witness_IdleCoreStays :
    State.reset.call = none ∧ State.reset.host = [] ∧ State.reset.fault = none := by decide

/-- The invariant with a call in progress at the extremes of its counter, and with a held fault. -/
theorem witness_StepKeepsInv :
    (wJsr.Inv ∧ ∃ t, step wJsr = .next t) ∧
    ({ State.reset with call := some { budget := 1, cyc := -5 } } : State).Inv ∧
    ({ hosted [.reset] with fault := some (.unrecognizedInstruction 0x00 0xFFFC) } : State).Inv :=
  ⟨⟨by decide, ⟨_, rfl⟩⟩, by decide, by decide⟩

theorem witness_ExecuteReturnsWithinItsBounds :
    (hosted [.execute (0 : Nat)]).Issues (.execute (0 : Nat)) [] ∧
    (hosted [.execute (1 : Nat), .readPc]).Issues (.execute (1 : Nat)) [.readPc] ∧
    (hosted [.execute (1 : Nat)]).initialized = true ∧ (hosted [.execute (1 : Nat)]).fault = none := by decide

theorem witness_StepsComputeExecute :
    (hosted [.execute 3]).Issues (.execute 3) [] ∧ (hosted [.execute (-1)]).Issues (.execute (-1)) [] := by decide

/-- One LDA Immediate run by a call of budget 1. -/
theorem witness_FaultFreeCallCompletes :
    let s := { hosted [.execute (1 : Nat)] with mem := [(0xFFFC, 0xA9), (0xFFFD, 0x42)] }
    s.Issues (.execute (1 : Nat)) [] ∧ s.initialized = true ∧ FaultFree (1 + 2) s := by
  refine ⟨by decide, rfl, fun j hj => ?_⟩
  interval_cases j <;> exact ⟨_, rfl, rfl⟩

end Sys2Proof.Tests
end

section
/-!
PROOFS. The state of 10_state.md: what each instruction and each command of the host can write, where a step stops,
and the statements about them.
-/

namespace Sys2Proof.Machine

variable {s t : State}

/-! ### What an instruction writes -/

/-- The push on the stack writes memory and SP only, and under `LEGACY` memory only. -/
theorem pushReturn_writes (ret : Word) (s : State) : ∃ m p, pushReturn ret s = ((s.setMem m).setSp p).charge 2 ∧
    (s.cfg.jsrStack = .legacy → p = s.sp) := by
  unfold pushReturn
  split
  next hd => exact ⟨_, _, pushReturnDescending_eq s ret, fun hl => by simp [hd] at hl⟩
  next => exact ⟨(pushReturnLegacy ret s).mem, s.sp, by rw [pushReturnLegacy_eq]; rfl, fun _ => rfl⟩

/-- Everything a started instruction can write, by its opcode: an opcode without a handler takes its fault, an LDA
loads A, a JSR writes memory and, under `DESCENDING`, SP. -/
theorem loopBody_writes (h : loopBody s = .next t) :
    (∃ f, t = takeFault f ((s.setPc (s.pc + 1)).charge 1)) ∨
    (s.byteAt s.pc ∈ [opcodeLdaImm, opcodeLdaZp, opcodeLdaZpx] ∧ ∃ v k, t = loadA v ((s.setPc (s.pc + 2)).charge k)) ∨
    (s.byteAt s.pc = opcodeJsr ∧ ∃ m p w, t = (((s.setMem m).setSp p).setPc w).charge 6 ∧
      (s.cfg.jsrStack = .legacy → p = s.sp)) := by
  obtain ⟨u, hu, hcases⟩ := loopBody_cases s
  obtain rfl : u = t := Host.Outcome.next.inj (hu.symm.trans h)
  obtain ⟨-, rfl⟩ | ⟨hop, rfl⟩ | ⟨hop, rfl⟩ | ⟨hop, rfl⟩ | ⟨hop, rfl⟩ := hcases
  · exact .inl ⟨_, rfl⟩
  · exact .inr (.inl ⟨by simp [hop], _, _, rfl⟩)
  · exact .inr (.inl ⟨by simp [hop], _, _, rfl⟩)
  · exact .inr (.inl ⟨by simp [hop], _, _, rfl⟩)
  · obtain ⟨m, p, hpush, hp⟩ := pushReturn_writes (s.pc + 3 - 1) ((s.setPc (s.pc + 3)).charge 3)
    refine .inr (.inr ⟨hop, m, p, mkWord (s.byteAt (s.pc + 2)) (s.byteAt (s.pc + 1)), ?_, hp⟩)
    simp only [jsrNext, State.charge_pc, State.setPc_pc, hpush, State.charge_charge, State.charge_setPc,
      State.charge_setSp, State.charge_setMem]
    rfl

/-- The flags no instruction of the subset writes (10_state.md R29). -/
abbrev Flag.notZN : List Flag := [.c, .i, .d, .b, .v]

theorem Flags.read_setZN {p : Flag} (hp : p ∈ Flag.notZN) (v : Byte) (f : Flags) :
    (setZN v f).read p = f.read p := by
  cases p with
  | c | i | d | b | v => rfl
  | z | n => simp at hp

/-- What no step inside an `execute` call writes (10_state.md R22, R23, R29). -/
structure State.CallFrame (s t : State) : Prop where
  x : t.x = s.x
  y : t.y = s.y
  flags : ∀ f ∈ Flag.notZN, t.flags.read f = s.flags.read f
  cfg : t.cfg = s.cfg
  initialized : t.initialized = s.initialized
  host : t.host = s.host

theorem loopBody_frame (h : loopBody s = .next t) : s.CallFrame t := by
  obtain ⟨f, rfl⟩ | ⟨-, v, k, rfl⟩ | ⟨-, m, p, w, rfl, -⟩ := loopBody_writes h
  · exact ⟨rfl, rfl, fun _ _ => rfl, rfl, rfl, rfl⟩
  · exact ⟨rfl, rfl, fun _ hf => Flags.read_setZN hf _ _, rfl, rfl, rfl⟩
  · exact ⟨rfl, rfl, fun _ _ => rfl, rfl, rfl, rfl⟩

/-- Inside a call, whether an instruction runs or the call returns. -/
theorem step_inCall_frame {c : Call} (hc : s.call = some c) (h : step s = .next t) : s.CallFrame t := by
  by_cases hcyc : 0 < c.cyc
  · exact loopBody_frame (step_running s hc hcyc ▸ h)
  · obtain rfl := Host.Outcome.next.inj ((step_returns s hc hcyc).symm.trans h)
    exact ⟨rfl, rfl, fun _ _ => rfl, rfl, rfl, rfl⟩

/-- Settles O33, from what `loopBody_writes` says of each opcode. -/
theorem instructionsWriteOnlyTheirState : Obligations.InstructionsWriteOnlyTheirState := by
  unfold Obligations.InstructionsWriteOnlyTheirState
  intro s t c ⟨hc, hcyc⟩ h
  rw [step_running s hc hcyc] at h
  have hF := loopBody_frame h
  refine ⟨hF.x, hF.y, hF.flags .c (by decide), hF.flags .i (by decide), hF.flags .d (by decide),
    hF.flags .b (by decide), hF.flags .v (by decide), hF.cfg, hF.initialized, hF.host, ?_⟩
  obtain ⟨f, rfl⟩ | ⟨hop, v, k, rfl⟩ | ⟨hop, m, p, w, rfl, hp⟩ := loopBody_writes h
  · exact ⟨fun _ => ⟨rfl, rfl, rfl⟩, fun _ => rfl, fun _ _ => rfl⟩
  · exact ⟨fun hne => absurd hop hne, fun _ => rfl, fun _ _ => rfl⟩
  · exact ⟨fun _ => ⟨rfl, rfl, rfl⟩, fun hsp => hp (hsp.resolve_left (absurd hop)), fun hne => absurd hop hne⟩

/-! ### What a command of the host writes -/

/-- An 8-bit register changes only by a reset or by the write of it. -/
theorem runCommand_readReg {c : Command} (h : runCommand c s = .next t) (hreset : c ≠ .reset) {p : Reg}
    (hp : t.readReg p ≠ s.readReg p) : ∃ v, c = .writeReg p v := by
  obtain ⟨rfl, -⟩ | ⟨b, -, -, -, rfl⟩ | ⟨r, v, rfl, rfl⟩ | ⟨w, -, rfl⟩ | ⟨f, e, -, rfl⟩ | ⟨m, -, rfl⟩ | ⟨r, rfl⟩ :=
    runCommand_cases h
  · exact absurd rfl hreset
  · exact absurd rfl hp
  · by_cases hpr : p = r
    · exact ⟨v, by rw [hpr]⟩
    · exact absurd ((State.readReg_writeReg s r p v).trans (if_neg hpr)) hp
  all_goals exact absurd rfl hp

/-- A flag changes only by a reset or by the write of it. -/
theorem runCommand_readFlag {c : Command} (h : runCommand c s = .next t) (hreset : c ≠ .reset) {p : Flag}
    (hp : t.flags.read p ≠ s.flags.read p) : ∃ e, c = .writeFlag p e := by
  obtain ⟨rfl, -⟩ | ⟨b, -, -, -, rfl⟩ | ⟨r, v, -, rfl⟩ | ⟨w, -, rfl⟩ | ⟨f, e, rfl, rfl⟩ | ⟨m, -, rfl⟩ | ⟨r, rfl⟩ :=
    runCommand_cases h
  · exact absurd rfl hreset
  · exact absurd rfl hp
  · simp at hp
  · exact absurd rfl hp
  · by_cases hpf : p = f
    · exact ⟨e, by rw [hpf]⟩
    · exact absurd ((Flags.read_write s.flags f p e).trans (if_neg hpf)) hp
  all_goals exact absurd rfl hp

/-- No command writes the configuration, and only reset writes `initialized`, which it sets. -/
theorem runCommand_cfg_initialized {c : Command} (h : runCommand c s = .next t) :
    t.cfg = s.cfg ∧ (c = .reset ∧ t.initialized = true ∨ t.initialized = s.initialized) := by
  obtain ⟨rfl, rfl⟩ | ⟨b, -, -, -, rfl⟩ | ⟨r, v, -, rfl⟩ | ⟨w, -, rfl⟩ | ⟨f, e, -, rfl⟩ | ⟨m, -, rfl⟩ | ⟨r, rfl⟩ :=
    runCommand_cases h
  · exact ⟨rfl, .inl ⟨rfl, rfl⟩⟩
  · exact ⟨rfl, .inr rfl⟩
  · simp
  all_goals exact ⟨rfl, .inr rfl⟩

/-- A machine is inside a call, or idle, or about to run a command of the host. -/
theorem State.call_cases (s : State) :
    (∃ c, s.call = some c) ∨ (s.call = none ∧ s.host = []) ∨ ∃ cmd rest, s.Issues cmd rest := by
  cases hc : s.call with
  | some c => exact .inl ⟨c, rfl⟩
  | none =>
    cases hh : s.host with
    | nil => exact .inr (.inl ⟨rfl, rfl⟩)
    | cons cmd rest => exact .inr (.inr ⟨cmd, rest, hc, hh⟩)

/-- Everything a step that answers a next state can be: one inside a call, one command of the host, or none. -/
theorem step_next_cases (h : step s = .next t) :
    s.call ≠ none ∧ s.CallFrame t ∨
    (∃ cmd rest, s.Issues cmd rest ∧ runCommand cmd { s with host := rest, result := none } = .next t) ∨
    t = s := by
  obtain ⟨c, hc⟩ | ⟨hc, hh⟩ | ⟨cmd, rest, hi⟩ := s.call_cases
  · exact .inl ⟨by simp [hc], step_inCall_frame hc h⟩
  · rw [step_idle hc hh] at h
    split at h
    · cases h
    · exact .inr (.inr (Host.Outcome.next.inj h).symm)
  · exact .inr (.inl ⟨cmd, rest, hi, (step_issues hi).symm.trans h⟩)

/-- Settles O34: a step inside a call writes none of them, and a command only its own register or flag. -/
theorem onlyResetAndHostWriteXYCIDBV : Obligations.OnlyResetAndHostWriteXYCIDBV := by
  unfold Obligations.OnlyResetAndHostWriteXYCIDBV
  intro s t h hreset
  obtain ⟨-, hF⟩ | ⟨cmd, rest, hi, hrun⟩ | rfl := step_next_cases h
  · exact ⟨absurd hF.x, absurd hF.y, fun f hf => absurd (hF.flags f hf)⟩
  · have hne : cmd ≠ .reset := by
      rintro rfl
      exact hreset.elim (absurd hi.1) fun hh => hh rest hi.2
    refine ⟨fun hx => ?_, fun hy => ?_, fun f _ hf => ?_⟩
    · obtain ⟨v, rfl⟩ := runCommand_readReg (p := .x) hrun hne hx
      exact ⟨v, rest, hi⟩
    · obtain ⟨v, rfl⟩ := runCommand_readReg (p := .y) hrun hne hy
      exact ⟨v, rest, hi⟩
    · obtain ⟨e, rfl⟩ := runCommand_readFlag hrun hne hf
      exact ⟨e, rest, hi⟩
  · exact ⟨absurd rfl, absurd rfl, fun _ _ => absurd rfl⟩

/-- Settles O35: of all steps only the reset command writes one of the two. -/
theorem initializedAndConfigStay : Obligations.InitializedAndConfigStay := by
  unfold Obligations.InitializedAndConfigStay
  intro s t h
  have key : t.cfg = s.cfg ∧
      ((∃ rest, s.Issues .reset rest) ∧ t.initialized = true ∨ t.initialized = s.initialized) := by
    obtain ⟨-, hF⟩ | ⟨cmd, rest, hi, hrun⟩ | rfl := step_next_cases h
    · exact ⟨hF.cfg, .inr hF.initialized⟩
    · obtain ⟨hcfg, ⟨rfl, hset⟩ | hkeep⟩ := runCommand_cfg_initialized hrun
      · exact ⟨hcfg, .inl ⟨⟨rest, hi⟩, hset⟩⟩
      · exact ⟨hcfg, .inr hkeep⟩
    · exact ⟨rfl, .inr rfl⟩
  obtain ⟨hcfg, ⟨hissues, hset⟩ | hkeep⟩ := key
  · exact ⟨hcfg, fun _ => hset, fun _ _ => hissues⟩
  · exact ⟨hcfg, fun hs => hkeep.trans hs, fun hs ht => by simp [hkeep, hs] at ht⟩

/-! ### What the host writes it reads back -/

/-- Two commands, of which the first answers a next state that issues the second. -/
theorem run_two_issues {u : State} {c d : Command} {rest : List Command} (hs : s.Issues c (d :: rest))
    (hc : runCommand c { s with host := d :: rest, result := none } = .next t) (ht : t.Issues d rest)
    (hd : runCommand d { t with host := rest, result := none } = .next u) : run 2 s = .next u := by
  simp only [run_succ, run_zero, step_issues hs, hc, step_issues ht, hd]

theorem readReturns_of_initialized (r : Result) (hs : s.initialized = true) :
    readReturns r s = .next (s.returns r) :=
  if_pos hs

/-- Settles O48: the write and the read are two commands, and a read after a write is `State.readReg_writeReg` and
`Flags.read_write`. -/
theorem hostRegisterAccess : Obligations.HostRegisterAccess := by
  unfold Obligations.HostRegisterAccess
  intro s rest hcall hinit
  refine ⟨fun r q v hh => ?_, fun w hh => ?_, fun f g e hh => ?_⟩
  · refine ⟨_, run_two_issues ⟨hcall, hh⟩ rfl ⟨by simp [hcall], by simp⟩
      (readReturns_of_initialized _ (by simp [hinit])), ?_, ?_, fun p => ?_⟩
    · exact congrArg (fun b => some (Result.byte b)) (State.readReg_writeReg _ r q v)
    · cases r <;> rfl
    · exact State.readReg_writeReg _ r p v
  · exact run_two_issues ⟨hcall, hh⟩ rfl ⟨hcall, rfl⟩ (readReturns_of_initialized _ hinit)
  · refine ⟨_, run_two_issues ⟨hcall, hh⟩ rfl ⟨hcall, rfl⟩ (readReturns_of_initialized _ hinit), ?_, rfl, fun p => ?_⟩
    · exact congrArg (fun b => some (Result.bit b)) (Flags.read_write s.flags f g e)
    · exact Flags.read_write s.flags f p e

/-! ### Where a step stops -/

/-- The commands that are refused before the first reset (10_state.md R33, 40_engine.md R98). -/
abbrev Command.NeedsReset (c : Command) : Prop :=
  (∃ b, c = .execute b) ∨ (∃ r, c = .readReg r) ∨ c = .readPc ∨ ∃ f, c = .readFlag f

/-- Why a command is refused, if it is. -/
abbrev Command.RefusedFor (c : Command) (s : State) (r : Refusal) : Prop :=
  (r = .notInitialized ∧ s.initialized = false ∧ c.NeedsReset) ∨
  (r = .negativeBudget ∧ s.initialized = true ∧ ∃ b < 0, c = .execute b)

theorem readReturns_refused_iff {q : Result} {r : Refusal} :
    readReturns q s = .refused r ↔ r = .notInitialized ∧ s.initialized = false := by
  cases hs : s.initialized <;> simp [readReturns, hs, eq_comm]

theorem beginExecute_refused_iff {b : Int} {r : Refusal} :
    beginExecute b s = .refused r ↔
      (r = .notInitialized ∧ s.initialized = false) ∨ (r = .negativeBudget ∧ s.initialized = true ∧ b < 0) := by
  cases hs : s.initialized with
  | false => simp [beginExecute, hs, eq_comm]
  | true =>
    cases b with
    | negSucc n => simp [beginExecute, hs, eq_comm, Int.negSucc_lt_zero]
    | ofNat n => cases hf : s.fault <;> simp [beginExecute, hs, hf]

theorem runCommand_refused_iff {c : Command} {r : Refusal} :
    runCommand c s = .refused r ↔ c.RefusedFor s r := by
  cases c with
  | execute b => simp [runCommand, Command.RefusedFor, Command.NeedsReset, beginExecute_refused_iff]
  | readReg | readPc | readFlag => simp [runCommand, Command.RefusedFor, Command.NeedsReset, readReturns_refused_iff]
  | reset | writeReg | writePc | writeFlag | memInit => simp [runCommand]
  | memRead addr => cases h : memRead s.mem addr <;> simp [runCommand, h]
  | memWrite addr v => cases h : memWrite s.mem addr v <;> simp [runCommand, h, writeReturns]
  | memWriteWord addr w => cases h : memWriteWord s.mem addr w <;> simp [runCommand, h, writeReturns]

theorem readReturns_ne_fault (q : Result) (s : State) (f : Fault) : readReturns q s ≠ .fault f := by
  cases hs : s.initialized <;> simp [readReturns, hs]

theorem beginExecute_ne_fault (b : Int) (s : State) (f : Fault) : beginExecute b s ≠ .fault f := by
  cases hs : s.initialized with
  | false => simp [beginExecute, hs]
  | true =>
    cases b with
    | negSucc n => simp [beginExecute, hs]
    | ofNat n => cases hf : s.fault <;> simp [beginExecute, hs, hf]

/-- No command ends in a fault: an address outside memory is answered to the host (60_exceptions.md R154). -/
theorem runCommand_ne_fault (c : Command) (s : State) (f : Fault) : runCommand c s ≠ .fault f := by
  cases c with
  | execute b => exact beginExecute_ne_fault b s f
  | readReg | readPc | readFlag => exact readReturns_ne_fault _ s f
  | reset | writeReg | writePc | writeFlag | memInit => simp [runCommand]
  | memRead addr => cases h : memRead s.mem addr <;> simp [runCommand, h]
  | memWrite addr v => cases h : memWrite s.mem addr v <;> simp [runCommand, h, writeReturns]
  | memWriteWord addr w => cases h : memWriteWord s.mem addr w <;> simp [runCommand, h, writeReturns]

/-- Inside a call every step answers a next state. -/
theorem step_inCall {c : Call} (hc : s.call = some c) : ∃ t, step s = .next t := by
  by_cases hcyc : 0 < c.cyc
  · obtain ⟨t, ht, -⟩ := loopBody_cases s
    exact ⟨t, (step_running s hc hcyc).trans ht⟩
  · exact ⟨_, step_returns s hc hcyc⟩

theorem step_refused_iff {r : Refusal} :
    step s = .refused r ↔ ∃ cmd rest, s.Issues cmd rest ∧ cmd.RefusedFor s r := by
  constructor
  · intro h
    obtain ⟨c, hc⟩ | ⟨hc, hh⟩ | ⟨cmd, rest, hi⟩ := s.call_cases
    · obtain ⟨t, ht⟩ := step_inCall hc
      cases ht.symm.trans h
    · rw [step_idle hc hh] at h
      split at h <;> cases h
    · have hr := runCommand_refused_iff.mp ((step_issues hi).symm.trans h)
      exact ⟨cmd, rest, hi, hr⟩
  · rintro ⟨cmd, rest, hi, hr⟩
    exact (step_issues hi).trans (runCommand_refused_iff.mpr hr)

theorem step_fault_iff {f : Fault} :
    step s = .fault f ↔ s.call = none ∧ s.host = [] ∧ s.fault = some f := by
  constructor
  · intro h
    obtain ⟨c, hc⟩ | ⟨hc, hh⟩ | ⟨cmd, rest, hi⟩ := s.call_cases
    · obtain ⟨t, ht⟩ := step_inCall hc
      cases ht.symm.trans h
    · rw [step_idle hc hh] at h
      split at h
      next hf => exact ⟨hc, hh, hf.trans (congrArg some (Host.Outcome.fault.inj h))⟩
      next => cases h
    · exact absurd ((step_issues hi).symm.trans h) (runCommand_ne_fault _ _ _)
  · rintro ⟨hc, hh, hf⟩
    rw [step_idle hc hh, hf]

/-- Settles O49, from `step_fault_iff` and `step_refused_iff`. -/
theorem stepStopsExactlyHere : Obligations.StepStopsExactlyHere := by
  unfold Obligations.StepStopsExactlyHere
  refine ⟨fun s f => step_fault_iff, fun s => ?_, fun s => ?_, fun s r h => ?_⟩
  · rw [step_refused_iff]
    constructor
    · rintro ⟨cmd, rest, hi, ⟨-, hinit, hcmd⟩ | ⟨hr, -⟩⟩
      · refine ⟨hinit, ?_⟩
        obtain ⟨b, rfl⟩ | ⟨r, rfl⟩ | rfl | ⟨f, rfl⟩ := hcmd
        · exact .inl ⟨b, rest, hi⟩
        · exact .inr (.inl ⟨r, rest, hi⟩)
        · exact .inr (.inr (.inl ⟨rest, hi⟩))
        · exact .inr (.inr (.inr ⟨f, rest, hi⟩))
      · cases hr
    · rintro ⟨hinit, ⟨b, rest, hi⟩ | ⟨r, rest, hi⟩ | ⟨rest, hi⟩ | ⟨f, rest, hi⟩⟩
      · exact ⟨_, rest, hi, .inl ⟨rfl, hinit, .inl ⟨b, rfl⟩⟩⟩
      · exact ⟨_, rest, hi, .inl ⟨rfl, hinit, .inr (.inl ⟨r, rfl⟩)⟩⟩
      · exact ⟨_, rest, hi, .inl ⟨rfl, hinit, .inr (.inr (.inl rfl))⟩⟩
      · exact ⟨_, rest, hi, .inl ⟨rfl, hinit, .inr (.inr (.inr ⟨f, rfl⟩))⟩⟩
  · rw [step_refused_iff]
    constructor
    · rintro ⟨cmd, rest, hi, ⟨hr, -⟩ | ⟨-, hinit, b, hb, rfl⟩⟩
      · cases hr
      · exact ⟨hinit, b, rest, hb, hi⟩
    · rintro ⟨hinit, b, rest, hb, hi⟩
      exact ⟨_, rest, hi, .inr ⟨rfl, hinit, b, hb, rfl⟩⟩
  · obtain ⟨cmd, rest, -, ⟨hr, -⟩ | ⟨hr, -⟩⟩ := step_refused_iff.mp h
    · exact .inl hr
    · exact .inr hr

/-! ### The cycle counter and PC -/

theorem map_charge_zero (q : Option Call) : q.map (Call.charge 0) = q := by
  cases q <;> simp [Call.charge]

theorem map_charge_charge (q : Option Call) (j k : Nat) :
    (q.map (Call.charge j)).map (Call.charge k) = q.map (Call.charge (j + k)) := by
  cases q <;> simp

/-- The push does not read the call it runs in. -/
theorem pushReturn_withCall (ret : Word) (s : State) (q : Option Call) :
    pushReturn ret { s with call := q } = { pushReturn ret s with call := q.map (Call.charge 2) } := by
  unfold pushReturn
  cases s.cfg.jsrStack with
  | descending => simp only [pushReturnDescending_eq]; rfl
  | legacy => simp only [pushReturnLegacy_eq]; rfl

/-- What an instruction leaves and the cycles it charges are the same in every call. -/
theorem exec_withCall (i : Instr) (s : State) : ∃ t k, exec i s = .next t ∧
    ∀ q : Option Call, exec i { s with call := q } = .next { t with call := q.map (Call.charge k) } := by
  cases i with
  | ldaImm imm8 => exact ⟨loadA imm8 s, 0, rfl, fun q => by rw [map_charge_zero]; rfl⟩
  | ldaZp zp => exact ⟨_, 1, rfl, fun q => rfl⟩
  | ldaZpx zp => exact ⟨_, 2, rfl, fun q => by rw [← map_charge_charge q 1 1]; rfl⟩
  | jsr target =>
    refine ⟨jsrNext target s, 3, rfl, fun q => ?_⟩
    change Host.Outcome.next (jsrNext target { s with call := q }) = _
    rw [← map_charge_charge q 2 1, jsrNext, pushReturn_withCall]
    rfl

/-- Settles O12, from `exec_withCall`. -/
theorem cycleCounterIsNeverData : Obligations.CycleCounterIsNeverData := exec_withCall

/-- Settles O14, from what `fetchByte` and `fetchWord` do to PC. -/
theorem pcWrapsAtTheTop : Obligations.PcWrapsAtTheTop := by
  unfold Obligations.PcWrapsAtTheTop
  intro s
  refine ⟨?_, fun hpc => ?_⟩
  · simp [fetchByte_eq]
  · have hword : (fetchWord s).1.toNat = 256 * (s.byteAt (s.pc + 1)).toNat + (s.byteAt s.pc).toNat := by
      rw [fetchWord_eq, mkWord_toNat]
    rw [hpc] at hword
    exact ⟨by simp [fetchByte_eq, hpc], by simp [fetchWord_eq, hpc], hword⟩

end Sys2Proof.Machine
end

section
/-!
PROOFS. The memory of 20_memory.md: its canonical form, the host's accesses, and the fetch of a byte JSR has stored.
-/

namespace Sys2Proof.Machine

/-! ### The canonical form -/

theorem Memory.wf_of_cons {c : Host.Cell} {m : Memory} (h : Memory.wf (c :: m)) :
    (∀ d ∈ m, c.1 < d.1) ∧ Memory.wf m := by
  obtain ⟨hsorted, hcells⟩ := h
  obtain ⟨hlt, hrest⟩ := List.pairwise_cons.mp hsorted
  exact ⟨hlt, hrest, fun d hd => hcells d (List.mem_cons_of_mem c hd)⟩

/-- Only a listed address holds anything but what an unlisted one reads as. -/
theorem Memory.mem_of_get_ne {m : Memory} {a : Nat} (h : m.get a ≠ unlistedByte) : (a, m.get a) ∈ m := by
  induction m with
  | nil => exact absurd rfl h
  | cons c rest ih =>
    rw [Memory.get_cons] at h ⊢
    split
    next hc => subst hc; exact List.mem_cons_self
    next hc => exact List.mem_cons_of_mem c (ih (by rwa [if_neg hc] at h))

theorem Memory.get_of_mem {m : Memory} (hm : m.wf) {c : Host.Cell} (hc : c ∈ m) : m.get c.1 = c.2 := by
  induction m with
  | nil => cases hc
  | cons d rest ih =>
    obtain ⟨hlt, hrest⟩ := Memory.wf_of_cons hm
    rw [Memory.get_cons]
    obtain rfl | hc := List.mem_cons.mp hc
    · exact if_pos rfl
    · exact (if_neg (Nat.ne_of_lt (hlt c hc))).trans (ih hrest hc)

/-- The cells of a canonical memory are determined by what it reads as. -/
theorem Memory.mem_iff_get {m : Memory} (hm : m.wf) (c : Host.Cell) :
    c ∈ m ↔ m.get c.1 = c.2 ∧ c.2 ≠ unlistedByte := by
  constructor
  · exact fun hc => ⟨Memory.get_of_mem hm hc, (hm.2 c hc).2⟩
  · rintro ⟨hget, hne⟩
    have hmem := Memory.mem_of_get_ne (hget ▸ hne)
    rwa [hget] at hmem

/-- Settles O36: memories that read alike have the same cells, in the same rising order. -/
theorem canonicalMemoriesThatReadAlikeAreEqual : Obligations.CanonicalMemoriesThatReadAlikeAreEqual := by
  unfold Obligations.CanonicalMemoriesThatReadAlikeAreEqual
  intro m n hm hn hget
  have : Std.Irrefl fun c d : Host.Cell => c.1 < d.1 := ⟨fun c => Nat.lt_irrefl c.1⟩
  refine hm.1.eq_of_mem_iff hn.1 fun c => ?_
  rw [Memory.mem_iff_get hm, Memory.mem_iff_get hn, hget]

/-! ### The host's accesses -/

section HostAccesses

variable {s : State} {rest : List Command} {addr : Nat}

theorem step_memRead (h : s.Issues (.memRead addr) rest) :
    step s = .next { s with
      host := rest,
      result := some (if addr < memSize then .byte (s.mem.get addr) else .error (.outOfRange addr)) } := by
  rw [step_issues h, runCommand]
  by_cases ha : addr < memSize
  · rw [memRead_of_lt ha, if_pos ha]
    rfl
  · rw [memRead_of_le (Nat.not_lt.mp ha), if_neg ha]
    rfl

/-- A host write that succeeds leaves the new memory and returns; nothing else changes. -/
theorem writeReturns_ok (m : Memory) :
    writeReturns (.ok m) { s with host := rest, result := none } =
      .next { s with host := rest, mem := m, result := some .done } := rfl

/-- A host write that fails returns its error and writes nothing (60_exceptions.md R154). -/
theorem writeReturns_error (f : Fault) :
    writeReturns (.error f) { s with host := rest, result := none } =
      .next { s with host := rest, result := some (.error f) } := rfl

theorem step_memWrite {v : Byte} (h : s.Issues (.memWrite addr v) rest) :
    step s = writeReturns (memWrite s.mem addr v) { s with host := rest, result := none } :=
  step_issues h

theorem step_memWriteWord {w : Word} (h : s.Issues (.memWriteWord addr w) rest) :
    step s = writeReturns (memWriteWord s.mem addr w) { s with host := rest, result := none } :=
  step_issues h

theorem step_memInit (h : s.Issues .memInit rest) :
    step s = .next { s with host := rest, mem := Memory.zero, result := some .done } :=
  step_issues h

end HostAccesses

/-- A word at the last address fails on its second byte, whose address does not exist (90_conflicts.md C5). -/
theorem memWriteWord_last {m : Memory} {w : Word} :
    memWriteWord m 65535 w = .error (.outOfRange 65536) := rfl

/-- What a word write does to every read: the low byte at its address, the high byte at the next. -/
theorem Memory.get_setWord (m : Memory) (a b : Nat) (w : Word) :
    ((m.set a (lo8 w)).set (a + 1) (hi8 w)).get b =
      if b = a then lo8 w else if b = a + 1 then hi8 w else m.get b := by
  rw [Memory.get_set, Memory.get_set]
  by_cases hb : b = a
  · rw [if_pos hb, if_pos hb, if_neg (by omega)]
  · rw [if_neg hb, if_neg hb]

/-- Settles O37, from `step_memRead`. -/
theorem hostMemoryRead : Obligations.HostMemoryRead := by
  unfold Obligations.HostMemoryRead
  intro s addr rest h
  exact step_memRead h

/-- Settles O38: a write is in range or not, and what it leaves in memory is `Memory.get_set`. -/
theorem hostMemoryWrite : Obligations.HostMemoryWrite := by
  unfold Obligations.HostMemoryWrite
  intro s addr v rest h
  rw [step_memWrite h]
  by_cases ha : addr < 65536
  · rw [memWrite_of_lt ha, writeReturns_ok]
    exact ⟨_, rfl, rfl, fun _ => ⟨rfl, fun b => Memory.get_set s.mem addr b v⟩, fun hout => by omega⟩
  · rw [memWrite_of_le (Nat.not_lt.mp ha), writeReturns_error]
    exact ⟨_, rfl, rfl, fun hin => absurd hin ha, fun _ => ⟨rfl, rfl⟩⟩

/-- Settles O39: both bytes are in range, or only the first, or neither. -/
theorem hostMemoryWriteWord : Obligations.HostMemoryWriteWord := by
  unfold Obligations.HostMemoryWriteWord
  intro s addr w rest h
  rw [step_memWriteWord h]
  obtain ha | rfl | ha : addr + 1 < 65536 ∨ addr = 65535 ∨ 65536 ≤ addr := by omega
  · rw [memWriteWord_of_lt ha, writeReturns_ok]
    exact ⟨_, rfl, rfl, fun _ => ⟨rfl, fun b => Memory.get_setWord s.mem addr b w⟩, fun hlast => by omega,
      fun hout => by omega⟩
  · rw [memWriteWord_last, writeReturns_error]
    exact ⟨_, rfl, rfl, fun hin => by omega, fun _ => ⟨rfl, rfl⟩, fun hout => by omega⟩
  · rw [memWriteWord_of_le ha, writeReturns_error]
    exact ⟨_, rfl, rfl, fun hin => by omega, fun hlast => by omega, fun _ => ⟨rfl, rfl⟩⟩

/-- Settles O40, from `step_memInit`: every address of the memory it leaves is unlisted. -/
theorem hostMemoryInit : Obligations.HostMemoryInit := by
  unfold Obligations.HostMemoryInit
  intro s rest h
  exact ⟨_, step_memInit h, rfl, Memory.get_zero⟩

/-! ### The fetch of a byte JSR has stored -/

/-- The step of a JSR, from the bytes at PC. -/
theorem step_jsr {s : State} {c : Call} (hs : s.Starts c) (hop : s.byteAt s.pc = opcodeJsr) :
    step s = .next
      (jsrNext (mkWord (s.byteAt (s.pc + 2)) (s.byteAt (s.pc + 1))) ((s.setPc (s.pc + 3)).charge 3)) := by
  obtain ⟨t, ht, hcases⟩ := loopBody_cases s
  rw [step_running s hs.1 hs.2, ht]
  rw [hop] at hcases
  obtain ⟨hno, -⟩ | ⟨hno, -⟩ | ⟨hno, -⟩ | ⟨hno, -⟩ | ⟨-, rfl⟩ := hcases
  · exact absurd hno (by decide)
  · exact absurd hno (by decide)
  · exact absurd hno (by decide)
  · exact absurd hno (by decide)
  · rfl

theorem pushReturn_of_descending {s : State} (h : s.cfg.jsrStack = .descending) (ret : Word) :
    pushReturn ret s = pushReturnDescending ret s := by
  rw [pushReturn, h]

@[simp] theorem jsrNext_pc (target : Word) (s : State) : (jsrNext target s).pc = target := rfl

/-- The descending push stores the low byte last, below the high one (42_subroutine.md R131). -/
theorem jsrNext_byteAt_low {s : State} (h : s.cfg.jsrStack = .descending) (target : Word) :
    (jsrNext target s).byteAt (stackAddr (s.sp - 1)) = lo8 (s.pc - 1) := by
  rw [jsrNext, pushReturn_of_descending h, pushReturnDescending_eq]
  exact Memory.get_set_same _ _ _

/-- Settles O32: the target is the address of the low byte, which the push stores last, and PC is the target. -/
theorem pushOnTheTargetIsFetched : Obligations.PushOnTheTargetIsFetched := by
  unfold Obligations.PushOnTheTargetIsFetched
  intro s c hs hstack hop htarget
  have haddr : mkWord (s.byteAt (s.pc + 2)) (s.byteAt (s.pc + 1)) = stackAddr (s.sp - 1) :=
    BitVec.eq_of_toNat_eq (by rw [mkWord_toNat, htarget, stackAddr_toNat])
  have hret : s.pc + 3 - 1 = s.pc + 2 := by rw [add_sub_assoc]; rfl
  refine ⟨_, step_jsr hs hop, ?_⟩
  rw [fetchByte_eq, jsrNext_pc, haddr, ← hret]
  exact jsrNext_byteAt_low (s := (s.setPc (s.pc + 3)).charge 3) hstack _

end Sys2Proof.Machine
end

section
/-!
PROOFS. The decoder and the encoder of 30_encoding.md: they are inverse to each other (`decode_eq_ok_iff`), and the
statements about the forms of R60 and R63, the rejected opcode bytes of R65, and the opcode table follow from that.
-/

namespace Sys2Proof

variable {op : Byte} {bytes rest : List Byte} {i : Instr} {h : Handler}

/-! ### Decoder and encoder -/

theorem decode_cons_of_some (hop : decodeOpcode op = some h) : decode (op :: bytes) = assemble h bytes := by
  rw [decode, hop]

theorem decode_cons_of_none (hop : decodeOpcode op = none) : decode (op :: bytes) = .error (.unrecognized op) := by
  rw [decode, hop]

/-- What a handler assembles is the instruction whose encoding has the handler's opcode byte and those operand
bytes. -/
theorem cons_eq_encode_append_of_assemble (hop : decodeOpcode op = some h) (ha : assemble h bytes = .ok (i, rest)) :
    op :: bytes = encode i ++ rest := by
  have hbyte := (decodeOpcode_eq_some op h).mp hop
  unfold assemble at ha
  split at ha
  case h_5 => cases ha
  all_goals
    cases ha
    simp [hbyte, encode]

theorem eq_encode_append_of_decode (hd : decode bytes = .ok (i, rest)) : bytes = encode i ++ rest := by
  cases bytes with
  | nil => cases hd
  | cons op operands =>
    cases hop : decodeOpcode op with
    | none => cases (decode_cons_of_none hop).symm.trans hd
    | some h => exact cons_eq_encode_append_of_assemble hop ((decode_cons_of_some hop).symm.trans hd)

/-- Of the four forms only JSR's splits its operand, into the two bytes that `mkWord` puts together again. -/
theorem decode_encode_append (i : Instr) (rest : List Byte) : decode (encode i ++ rest) = .ok (i, rest) := by
  cases i with
  | ldaImm imm8 => rfl
  | ldaZp zp => rfl
  | ldaZpx zp => rfl
  | jsr target =>
    calc decode (encode (.jsr target) ++ rest)
        = .ok (.jsr (mkWord (hi8 target) (lo8 target)), rest) := rfl
      _ = .ok (.jsr target, rest) := by rw [mkWord_hi8_lo8]

theorem decode_eq_ok_iff : decode bytes = .ok (i, rest) ↔ bytes = encode i ++ rest := by
  constructor
  · exact eq_encode_append_of_decode
  · rintro rfl
    exact decode_encode_append i rest

/-- Settles O2: the round trip from the instruction. -/
theorem decodeInvertsEncode : Obligations.DecodeInvertsEncode := decode_encode_append

/-- Settles O3: the round trip from the bytes. -/
theorem encodeInvertsDecode : Obligations.EncodeInvertsDecode := fun _ _ _ => eq_encode_append_of_decode

/-! ### The forms of the format table -/

theorem encodingWf_encode (i : Instr) : encodingWf (encode i) = true := by
  cases i with
  | ldaImm imm8 => exact Laws.EncodingForm.ldaImm imm8
  | ldaZp zp => exact Laws.EncodingForm.ldaZp zp
  | ldaZpx zp => exact Laws.EncodingForm.ldaZpx zp
  | jsr target => exact Laws.EncodingForm.jsr target

theorem exists_eq_encode_of_encodingWf (hw : encodingWf bytes = true) : ∃ i, bytes = encode i := by
  unfold encodingWf at hw
  split at hw
  next op operand =>
    simp only [Bool.or_eq_true, beq_iff_eq] at hw
    obtain (rfl | rfl) | rfl := hw
    · exact ⟨.ldaImm operand, rfl⟩
    · exact ⟨.ldaZp operand, rfl⟩
    · exact ⟨.ldaZpx operand, rfl⟩
  next op lo hi =>
    obtain rfl := eq_of_beq hw
    exact ⟨.jsr (mkWord hi lo), by simp [encode, opcodeJsr]⟩
  next => cases hw

/-- Settles O4: both sides say that the bytes are the encoding of some instruction. -/
theorem wholeInstructionsHaveTheTablesForms : Obligations.WholeInstructionsHaveTheTablesForms := by
  unfold Obligations.WholeInstructionsHaveTheTablesForms
  intro bytes
  simp only [decode_eq_ok_iff, List.append_nil]
  constructor
  · exact exists_eq_encode_of_encodingWf
  · rintro ⟨i, rfl⟩
    exact encodingWf_encode i

/-! ### The rejected opcode bytes -/

/-- A handler can lack operand bytes, but never rejects an opcode. -/
theorem assemble_ne_unrecognized (h : Handler) (bytes : List Byte) (op : Byte) :
    assemble h bytes ≠ .error (.unrecognized op) := by
  unfold assemble
  split <;> exact nofun

theorem decode_cons_eq_unrecognized_iff :
    decode (op :: rest) = .error (.unrecognized op) ↔ decodeOpcode op = none := by
  constructor
  · intro hd
    cases hop : decodeOpcode op with
    | none => rfl
    | some h => exact absurd ((decode_cons_of_some hop).symm.trans hd) (assemble_ne_unrecognized h rest op)
  · exact decode_cons_of_none

/-- Settles O5: the decoder rejects what the opcode map has no handler for. -/
theorem rejectedOpcodesAreAllButFour : Obligations.RejectedOpcodesAreAllButFour := by
  unfold Obligations.RejectedOpcodesAreAllButFour
  intro op rest
  exact decode_cons_eq_unrecognized_iff.trans (decodeOpcode_eq_none op)

/-! ### The opcode table -/

/-- A 16-bit table word holds two bytes, the opcode in its low one (30_encoding.md R62). -/
theorem tableBytes_two (op lo : Byte) : tableBytes 16 (op.toNat + 256 * lo.toNat) = [op, lo, 0#8] := by
  have hop := op.isLt
  have hlo := lo.isLt
  have hword : (op.toNat + 256 * lo.toNat) % 2 ^ 16 = op.toNat + 256 * lo.toNat := Nat.mod_eq_of_lt (by omega)
  simp only [tableBytes, hword, List.cons.injEq, and_true, ← BitVec.toNat_inj, BitVec.toNat_ofNat]
  omega

/-- A 24-bit table word holds three. -/
theorem tableBytes_three (op lo hi : Byte) :
    tableBytes 24 (op.toNat + 256 * lo.toNat + 65536 * hi.toNat) = [op, lo, hi] := by
  have hop := op.isLt
  have hlo := lo.isLt
  have hhi := hi.isLt
  have hword : (op.toNat + 256 * lo.toNat + 65536 * hi.toNat) % 2 ^ 24 =
      op.toNat + 256 * lo.toNat + 65536 * hi.toNat := Nat.mod_eq_of_lt (by omega)
  simp only [tableBytes, hword, List.cons.injEq, and_true, ← BitVec.toNat_inj, BitVec.toNat_ofNat]
  omega

theorem decodeTableWord_eq_some {nbits w : Nat} (hw : tableBytes nbits w = encode i ++ rest) :
    decodeTableWord nbits w = some i := by
  rw [decodeTableWord, hw, decode_encode_append]

theorem mkWord_eq_ofNat (hi lo : Byte) : mkWord hi lo = BitVec.ofNat 16 (256 * hi.toNat + lo.toNat) := by
  rw [← mkWord_toNat, BitVec.ofNat_toNat, BitVec.setWidth_eq]

/-- Settles O6: the bytes of each row's word are the encoding of the row's instruction. -/
theorem tableRowsDecode : Obligations.TableRowsDecode := by
  unfold Obligations.TableRowsDecode
  intro lo hi
  refine ⟨decodeTableWord_eq_some (tableBytes_two opcodeLdaImm lo),
    decodeTableWord_eq_some (tableBytes_two opcodeLdaZp lo),
    decodeTableWord_eq_some (tableBytes_two opcodeLdaZpx lo), ?_⟩
  rw [← mkWord_eq_ofNat]
  have hbytes : [opcodeJsr, lo, hi] = encode (.jsr (mkWord hi lo)) ++ [] := by simp [encode]
  exact decodeTableWord_eq_some ((tableBytes_three opcodeJsr lo hi).trans hbytes)

/-- Settles O1: each of the four byte strings is the encoding of its instruction. -/
theorem exampleWordsDecode : Obligations.ExampleWordsDecode :=
  ⟨decode_encode_append (.ldaImm 0x42) [], decode_encode_append (.ldaZp 0x42) [],
    decode_encode_append (.ldaZpx 0x80) [], decode_encode_append (.jsr 0x8000) []⟩

end Sys2Proof
end

section
/-!
PROOFS. The execute loop of 40_engine.md: what its primitives and one started instruction do, the invariant every step
keeps, and whole `execute` calls, whose steps compute the loop written as one function.
-/

namespace Sys2Proof.Machine

variable {s t : State} {c : Call}

/-! ### The primitives -/

/-- Settles O13, from `fetchWord_eq`. -/
theorem fetchWordIsLittleEndian : Obligations.FetchWordIsLittleEndian := by
  unfold Obligations.FetchWordIsLittleEndian
  intro s
  rw [fetchWord_eq]
  exact ⟨mkWord_toNat _ _, rfl⟩

/-- Settles O56: the one cycle is all that `read_byte` charges. -/
theorem readByteLeavesPc : Obligations.ReadByteLeavesPc := by
  unfold Obligations.ReadByteLeavesPc
  intro ea s c hc
  simp only [readByte, State.byteAt, State.charge, hc]
  rfl

/-- Settles O22: N is `setZN_n`, and the rest is how `setZN` is written. -/
theorem flagUnitWritesZAndN : Obligations.FlagUnitWritesZAndN := by
  unfold Obligations.FlagUnitWritesZAndN
  intro v f
  calc setZN v f
      = { f with z := decide (v = 0), n := (setZN v f).n } := rfl
    _ = { f with z := decide (v = 0), n := decide (0x80 ≤ v.toNat) } := by rw [setZN_n]

/-- Zero Page,X charges the fetch of `zp` and the index computation, and moves PC past `zp` (40_engine.md R88). -/
theorem eaZpx_operandZp (s : State) :
    eaZpx (operandZp s).1 (operandZp s).2 =
      (zext16 (s.byteAt s.pc + s.x), (s.setPc (s.pc + 1)).charge 2) := by
  simp [operandZp, fetchByte_eq, eaZpx, tick]

/-- Settles O23: a byte's sum wraps modulo 256, and extending it keeps its value. -/
theorem indexingStaysInPageZero : Obligations.IndexingStaysInPageZero := by
  unfold Obligations.IndexingStaysInPageZero
  intro s
  have hsum : (zext16 (s.byteAt s.pc + s.x)).toNat = ((s.byteAt s.pc).toNat + s.x.toNat) % 256 := by
    rw [zext16_toNat, BitVec.toNat_add]
  rw [eaZpx_operandZp]
  exact ⟨hsum, hsum ▸ Nat.mod_lt _ (by decide), rfl⟩

/-! ### One instruction -/

/-- Only the opcode byte decides whether the bytes at PC decode: memory never ends (10_state.md R26). -/
theorem exists_decode_bytesFrom {h : Handler} (hop : decodeOpcode (s.byteAt s.pc) = some h) :
    ∃ i rest, decode (s.bytesFrom s.pc 3) = .ok (i, rest) := by
  cases h <;> exact ⟨_, _, decode_cons_of_some hop⟩

theorem loopBody_of_handler {h : Handler} (hop : decodeOpcode (s.byteAt s.pc) = some h) :
    loopBody s = exec (fetchOperand h ((s.setPc (s.pc + 1)).charge 1)).1
      (fetchOperand h ((s.setPc (s.pc + 1)).charge 1)).2 := by
  simp only [loopBody, fetchByte_eq, hop]

/-- The loop's body fetches the bytes the decoder reads, and then runs what they decode to (40_engine.md R92). -/
theorem loopBody_of_decode {i : Instr} {rest : List Byte} (hd : decode (s.bytesFrom s.pc 3) = .ok (i, rest)) :
    loopBody s =
      exec i ((s.setPc (s.pc + BitVec.ofNat 16 (encode i).length)).charge (encode i).length) := by
  cases hop : decodeOpcode (s.byteAt s.pc) with
  | none => cases (decode_cons_of_none hop).symm.trans hd
  | some h =>
    have ha := (decode_cons_of_some hop).symm.trans hd
    rw [loopBody_of_handler hop]
    cases h with
    | ldaImm => cases ha; simp [fetchOperand_ldaImm, encode, BitVec.add_assoc]
    | ldaZp => cases ha; simp [fetchOperand_ldaZp, encode, BitVec.add_assoc]
    | ldaZpx => cases ha; simp [fetchOperand_ldaZpx, encode, BitVec.add_assoc]
    | jsrAbs => cases ha; simp [fetchOperand_jsrAbs, encode, BitVec.add_assoc]

/-- Settles O7, from `loopBody_of_decode`. -/
theorem stepRunsDecodedInstruction : Obligations.StepRunsDecodedInstruction := by
  unfold Obligations.StepRunsDecodedInstruction
  intro s c i rest ⟨hc, hcyc⟩ hd
  rw [step_running s hc hcyc, loopBody_of_decode hd]
  simp only [State.charge, State.setPc, hc]
  rfl

/-- A started step on an opcode without a handler (60_exceptions.md R151, R152). -/
theorem step_of_no_handler (hs : s.Starts c) (hop : decodeOpcode (s.byteAt s.pc) = none) :
    step s = .next { s with
      pc := s.pc + 1,
      call := none,
      fault := some (.unrecognizedInstruction (s.byteAt s.pc) s.pc),
      result := some (.faulted (.unrecognizedInstruction (s.byteAt s.pc) s.pc) (c.budget - (c.cyc - 1))) } := by
  obtain ⟨hc, hcyc⟩ := hs
  have hcharged : ((s.setPc (s.pc + 1)).charge 1).call = some (c.charge 1) := by simp [hc]
  simp only [step_running s hc hcyc, loopBody, fetchByte_eq, hop, takeFault_of_call _ hcharged]
  rfl

/-- The cycles an instruction costs, its fetched bytes included (40_engine.md R96; 42_subroutine.md R133). -/
def handlerCycles : Handler → Nat
  | .ldaImm => 2
  | .ldaZp => 3
  | .ldaZpx => 4
  | .jsrAbs => 6

theorem handlerCycles_bounds (h : Handler) : 2 ≤ handlerCycles h ∧ handlerCycles h ≤ 6 := by
  cases h <;> decide

/-- `t` is `s` after an instruction that has charged `k` cycles and completed: no fault is taken, the call goes on,
and memory keeps its canonical form. -/
structure State.Completes (s t : State) (k : Nat) : Prop extends State.CallFrame s t where
  call : t.call = s.call.map (Call.charge k)
  fault : t.fault = s.fault
  result : t.result = s.result
  mem_wf : s.mem.wf → t.mem.wf

theorem jsrNext_completes {target w : Word} (hF : s.CallFrame (jsrNext target ((s.setPc w).charge 3))) :
    s.Completes (jsrNext target ((s.setPc w).charge 3)) 6 := by
  obtain ⟨m, p, hpush, -⟩ := pushReturn_writes (w - 1) ((s.setPc w).charge 3)
  have hwf := pushReturn_wf ((s.setPc w).charge 3) (w - 1)
  have hnext : jsrNext target ((s.setPc w).charge 3) = (((s.setMem m).setSp p).setPc target).charge 6 := by
    simp only [jsrNext, State.charge_pc, State.setPc_pc, hpush, State.charge_charge, State.charge_setPc,
      State.charge_setSp, State.charge_setMem]
    rfl
  rw [hpush] at hwf
  rw [hnext] at hF ⊢
  exact ⟨hF, rfl, rfl, rfl, hwf⟩

/-- A started step on an opcode with a handler completes, at the handler's cost. -/
theorem step_of_handler (hs : s.Starts c) {h : Handler} (hop : decodeOpcode (s.byteAt s.pc) = some h) :
    ∃ t, step s = .next t ∧ s.Completes t (handlerCycles h) := by
  obtain ⟨t, ht, hcases⟩ := loopBody_cases s
  have hF := loopBody_frame ht
  refine ⟨t, (step_running s hs.1 hs.2).trans ht, ?_⟩
  have handler {g : Handler} (hg : decodeOpcode (s.byteAt s.pc) = some g) : g = h :=
    Option.some.inj (hg.symm.trans hop)
  obtain ⟨hno, -⟩ | ⟨hop', rfl⟩ | ⟨hop', rfl⟩ | ⟨hop', rfl⟩ | ⟨hop', rfl⟩ := hcases
  · cases hno.symm.trans hop
  · obtain rfl := handler (g := .ldaImm) (hop' ▸ rfl)
    exact ⟨hF, rfl, rfl, rfl, id⟩
  · obtain rfl := handler (g := .ldaZp) (hop' ▸ rfl)
    exact ⟨hF, rfl, rfl, rfl, id⟩
  · obtain rfl := handler (g := .ldaZpx) (hop' ▸ rfl)
    exact ⟨hF, rfl, rfl, rfl, id⟩
  · obtain rfl := handler (g := .jsrAbs) (hop' ▸ rfl)
    exact jsrNext_completes hF

/-- Settles O11, from `step_of_handler` for the four opcodes and `step_of_no_handler` for the others. -/
theorem cycleCosts : Obligations.CycleCosts := by
  unfold Obligations.CycleCosts
  intro s t c hs ht
  have charged {h : Handler} (hop : decodeOpcode (s.byteAt s.pc) = some h) :
      t.call = some (c.charge (handlerCycles h)) := by
    obtain ⟨u, hu, hC⟩ := step_of_handler hs hop
    obtain rfl := Host.Outcome.next.inj (hu.symm.trans ht)
    rw [hC.call, hs.1]
    rfl
  refine ⟨fun hop => charged (h := .ldaImm) (hop ▸ rfl), fun hop => charged (h := .ldaZp) (hop ▸ rfl),
    fun hop => charged (h := .ldaZpx) (hop ▸ rfl), fun hop => charged (h := .jsrAbs) (hop ▸ rfl), fun hop => ?_⟩
  have hfaulted := step_of_no_handler hs ((decodeOpcode_eq_none _).mpr hop)
  obtain rfl := Host.Outcome.next.inj (hfaulted.symm.trans ht)
  exact ⟨_, rfl⟩

/-- The loop guard's return (40_engine.md R92). -/
theorem step_at_guard (hc : s.call = some c) (hcyc : c.cyc ≤ 0) :
    step s = .next { s with call := none, result := some (.completed (c.budget - c.cyc)) } := by
  rw [step_returns s hc (Int.not_lt.mpr hcyc), returnCompleted_of_call hc]

/-- Settles O10: the bytes at PC, which do not depend on the call, select the instruction, and `exec_withCall` says
that it does not read the call it runs in. -/
theorem loopGuardIsTheOnlyBudgetTest : Obligations.LoopGuardIsTheOnlyBudgetTest := by
  unfold Obligations.LoopGuardIsTheOnlyBudgetTest
  refine ⟨fun s c => step_at_guard, fun s c d hc hd => ?_⟩
  cases hop : decodeOpcode (s.byteAt s.pc) with
  | none =>
    have faulted (q : Call) (hq : 0 < q.cyc) := step_of_no_handler (s := { s with call := some q }) ⟨rfl, hq⟩ hop
    exact ⟨_, _, 0, faulted c hc, faulted d hd, rfl, .inr ⟨rfl, rfl⟩⟩
  | some h =>
    obtain ⟨i, rest, hdec⟩ := exists_decode_bytesFrom hop
    have runs (q : Call) (hq : 0 < q.cyc) :=
      stepRunsDecodedInstruction { s with call := some q } q i rest ⟨rfl, hq⟩ hdec
    obtain ⟨t, k, -, ht⟩ := exec_withCall i { s with pc := s.pc + BitVec.ofNat 16 (encode i).length }
    refine ⟨_, _, (((encode i).length + k : Nat) : Int), (runs c hc).trans (ht _), (runs d hd).trans (ht _), rfl,
      .inl ⟨?_, ?_⟩⟩
    · exact congrArg some (Call.charge_charge (encode i).length k c)
    · exact congrArg some (Call.charge_charge (encode i).length k d)

/-! ### The invariant -/

/-- A completed instruction keeps what holds of a call in progress: it started with a cycle left and costs at most 6
(40_engine.md R94). -/
theorem State.Completes.callOk {h : Handler} (hC : s.Completes t (handlerCycles h)) (hok : s.callOk c)
    (hcyc : 0 < c.cyc) : t.callOk (c.charge (handlerCycles h)) := by
  obtain ⟨hinit, hfault, hresult, hlow, hhigh⟩ := hok
  have hcost := handlerCycles_bounds h
  refine ⟨hC.initialized.trans hinit, hC.fault.trans hfault, hC.result.trans hresult, ?_, ?_⟩
  · simp only [Call.charge]; omega
  · simp only [Call.charge]; omega

theorem callOk_at_start (hinit : s.initialized = true) (hfault : s.fault = none) (hresult : s.result = none)
    (budget : Nat) : s.callOk { budget := budget, cyc := budget } :=
  ⟨hinit, hfault, hresult, (by decide : (-5 : Int) ≤ 0).trans (Int.natCast_nonneg budget), Int.le_refl _⟩

theorem step_inCall_keeps_inv (hs : s.Inv) (hc : s.call = some c) (h : step s = .next t) : t.Inv := by
  obtain ⟨hmem, hcall, hfault⟩ := hs
  by_cases hcyc : 0 < c.cyc
  · cases hop : decodeOpcode (s.byteAt s.pc) with
    | none =>
      obtain rfl := Host.Outcome.next.inj ((step_of_no_handler ⟨hc, hcyc⟩ hop).symm.trans h)
      refine ⟨hmem, nofun, fun f hf => ?_⟩
      obtain rfl := Option.some.inj hf
      exact Option.isNone_iff_eq_none.mpr hop
    | some g =>
      obtain ⟨u, hu, hC⟩ := step_of_handler ⟨hc, hcyc⟩ hop
      obtain rfl := Host.Outcome.next.inj (hu.symm.trans h)
      refine ⟨hC.mem_wf hmem, fun d hd => ?_, hC.fault ▸ hfault⟩
      rw [hC.call, hc] at hd
      obtain rfl := Option.some.inj hd
      exact hC.callOk (hcall c hc) hcyc
  · obtain rfl := Host.Outcome.next.inj ((step_at_guard hc (Int.not_lt.mp hcyc)).symm.trans h)
    exact ⟨hmem, nofun, hfault⟩

/-- Only `execute` begins a call, and with its counter at the budget; only reset writes the held fault. -/
theorem runCommand_keeps_inv {cmd : Command} (hs : s.Inv) (hc : s.call = none) (hr : s.result = none)
    (h : runCommand cmd s = .next t) : t.Inv := by
  obtain ⟨hmem, hcall, hfault⟩ := hs
  obtain ⟨-, rfl⟩ | ⟨b, -, hinit, hnone, rfl⟩ | ⟨r, v, -, rfl⟩ | ⟨w, -, rfl⟩ | ⟨f, e, -, rfl⟩ | ⟨m, hwf, rfl⟩ |
    ⟨r, rfl⟩ := runCommand_cases h
  · exact ⟨Memory.wf_zero, nofun, nofun⟩
  · refine ⟨hmem, fun d hd => ?_, hfault⟩
    obtain rfl := Option.some.inj hd
    exact callOk_at_start hinit hnone hr b
  · refine ⟨by simpa using hmem, by simp [hc], by simpa using hfault⟩
  · exact ⟨hmem, by simp [hc], hfault⟩
  · exact ⟨hmem, by simp [hc], hfault⟩
  · exact ⟨hwf hmem, by simp [hc], hfault⟩
  · exact ⟨hmem, by simp [hc], hfault⟩

/-- Settles O52: a step inside a call, an idle one, or one command of the host. -/
theorem stepKeepsInv : Obligations.StepKeepsInv := by
  unfold Obligations.StepKeepsInv
  intro s t hs h
  obtain ⟨c, hc⟩ | ⟨hc, hh⟩ | ⟨cmd, rest, hi⟩ := s.call_cases
  · exact step_inCall_keeps_inv hs hc h
  · rw [step_idle hc hh] at h
    split at h
    · cases h
    · exact Host.Outcome.next.inj h ▸ hs
  · obtain ⟨hmem, -, hfault⟩ := hs
    have hissued : ({ s with host := rest, result := none } : State).Inv := ⟨hmem, by simp [hi.1], hfault⟩
    exact runCommand_keeps_inv hissued hi.1 rfl ((step_issues hi).symm.trans h)

/-! ### The start of a call -/

theorem run_succ_of_next (h : step s = .next t) (k : Nat) : run (k + 1) s = run k t := by
  rw [run_succ, h]

/-- `s` inside the `execute` call it has just begun. -/
abbrev State.calling (s : State) (budget : Nat) (rest : List Command) : State :=
  { s with host := rest, result := none, call := some { budget := budget, cyc := budget } }

theorem beginExecute_starts (budget : Nat) (hinit : s.initialized = true) (hfault : s.fault = none) :
    beginExecute budget s = .next { s with call := some { budget := budget, cyc := budget } } := by
  simp only [beginExecute, hinit, hfault]
  rfl

/-- While a fault is held `execute` returns it at once (40_engine.md R99). -/
theorem beginExecute_held (budget : Nat) {f : Fault} (hinit : s.initialized = true) (hfault : s.fault = some f) :
    beginExecute budget s = .next (s.returns (.faulted f 0)) := by
  simp only [beginExecute, hinit, hfault]
  rfl

/-- Settles O45, from `beginExecute_starts`. -/
theorem executeStarts : Obligations.ExecuteStarts := by
  unfold Obligations.ExecuteStarts
  intro s budget rest hi hinit hfault
  exact (step_issues hi).trans (beginExecute_starts budget hinit hfault)

/-- Settles O44, from `beginExecute_refused_iff`. -/
theorem executePreconditions : Obligations.ExecutePreconditions := by
  unfold Obligations.ExecutePreconditions
  intro s budget rest hi
  simp only [step_issues hi, runCommand, beginExecute_refused_iff]
  constructor
  · rintro (hinit | hneg)
    · exact ⟨_, .inl ⟨rfl, hinit⟩⟩
    · cases hinit : s.initialized with
      | false => exact ⟨_, .inl ⟨rfl, rfl⟩⟩
      | true => exact ⟨_, .inr ⟨rfl, rfl, hneg⟩⟩
  · rintro ⟨r, ⟨-, hinit⟩ | ⟨-, -, hneg⟩⟩
    · exact .inl hinit
    · exact .inr hneg

/-- Settles O46: the call starts with its guard already false. -/
theorem executeZeroChangesNothing : Obligations.ExecuteZeroChangesNothing := by
  unfold Obligations.ExecuteZeroChangesNothing
  intro s rest hi hinit hfault
  have hguard := step_at_guard (s := s.calling 0 rest) rfl (Int.le_refl 0)
  rw [run_succ_of_next (executeStarts s 0 rest hi hinit hfault), run_succ_of_next hguard, run_zero, hi.1]
  rfl

/-- A held fault is cleared only by reset (60_exceptions.md R158). -/
theorem runCommand_fault {cmd : Command} {f : Fault} (hf : s.fault = some f) (h : runCommand cmd s = .next t) :
    (cmd = .reset ∧ t.fault = none) ∨ t.fault = some f := by
  obtain ⟨hcmd, rfl⟩ | ⟨b, -, -, hnone, -⟩ | ⟨r, v, -, rfl⟩ | ⟨w, -, rfl⟩ | ⟨g, e, -, rfl⟩ | ⟨m, -, rfl⟩ | ⟨r, rfl⟩ :=
    runCommand_cases h
  · exact .inl ⟨hcmd, rfl⟩
  · cases hnone.symm.trans hf
  · exact .inr (by simpa using hf)
  all_goals exact .inr hf

/-- Settles O47, from `beginExecute_held` and `runCommand_fault`. -/
theorem heldFaultStaysUntilReset : Obligations.HeldFaultStaysUntilReset := by
  unfold Obligations.HeldFaultStaysUntilReset
  intro s f hinit hc hf
  refine ⟨fun budget rest hh => (step_issues ⟨hc, hh⟩).trans (beginExecute_held budget hinit hf), fun t h hne => ?_⟩
  obtain ⟨hcall, -⟩ | ⟨cmd, rest, hi, hrun⟩ | rfl := step_next_cases h
  · exact absurd hc hcall
  · obtain ⟨rfl, hnone⟩ | hkept := runCommand_fault (s := { s with host := rest, result := none }) hf hrun
    · exact ⟨hnone, rest, hi.2⟩
    · exact absurd hkept hne
  · exact absurd hf hne

/-! ### Whole calls -/

/-- The step from `s` to `t` ends the call `c`: the guard has failed, or an opcode without a handler has faulted. -/
structure State.Ends (s : State) (c : Call) (t : State) : Prop where
  call : t.call = none
  host : t.host = s.host
  outcome : (c.cyc ≤ 0 ∧ t.fault = s.fault ∧ t.result = some (.completed (c.budget - c.cyc))) ∨
    (0 < c.cyc ∧ ∃ f, t.fault = some f ∧ t.result = some (.faulted f (c.budget - (c.cyc - 1))))

/-- A step inside a call ends it, or completes an instruction, which leaves it with a smaller counter. -/
theorem step_inCall_ends_or_completes (hc : s.call = some c) : ∃ t, step s = .next t ∧ (s.Ends c t ∨
    0 < c.cyc ∧ ∃ h, s.Completes t (handlerCycles h) ∧ t.call = some (c.charge (handlerCycles h))) := by
  by_cases hcyc : 0 < c.cyc
  · cases hop : decodeOpcode (s.byteAt s.pc) with
    | none => exact ⟨_, step_of_no_handler ⟨hc, hcyc⟩ hop, .inl ⟨rfl, rfl, .inr ⟨hcyc, _, rfl, rfl⟩⟩⟩
    | some h =>
      obtain ⟨t, ht, hC⟩ := step_of_handler ⟨hc, hcyc⟩ hop
      exact ⟨t, ht, .inr ⟨hcyc, h, hC, by rw [hC.call, hc]; rfl⟩⟩
  · have hguard := Int.not_lt.mp hcyc
    exact ⟨_, step_at_guard hc hguard, .inl ⟨rfl, rfl, .inl ⟨hguard, rfl, rfl⟩⟩⟩

section Loop

variable {fuel : Nat}

theorem executeLoop_ended (hc : s.call = none) : executeLoop fuel s = .next s := by
  cases fuel with
  | zero => rfl
  | succ n => rw [executeLoop, hc]

/-- Inside a call one pass of the loop is one step, whether an instruction runs or the guard fails. -/
theorem executeLoop_inCall (hc : s.call = some c) (h : step s = .next t) :
    executeLoop (fuel + 1) s = executeLoop fuel t := by
  rw [executeLoop, hc]
  by_cases hcyc : 0 < c.cyc
  · simp only [if_pos hcyc, (step_running s hc hcyc).symm.trans h]
  · obtain rfl := Host.Outcome.next.inj ((step_returns s hc hcyc).symm.trans h)
    simp only [if_neg hcyc]
    exact (executeLoop_ended rfl).symm

/-- The counter that an instruction leaves is below the fuel that is left. -/
theorem charge_cyc_lt_fuel (hcyc : 0 < c.cyc) (hfuel : c.cyc.toNat < fuel + 1) (h : Handler) :
    (c.charge (handlerCycles h)).cyc.toNat < fuel := by
  have hcost := handlerCycles_bounds h
  simp only [Call.charge]
  omega

/-- The steps of a call compute the loop: each pass is a step, and an instruction costs a cycle or more. -/
theorem exists_run_eq_executeLoop (hc : s.call = some c) (hfuel : c.cyc.toNat < fuel) :
    ∃ k ≤ fuel, run k s = executeLoop fuel s := by
  induction fuel generalizing s c with
  | zero => exact absurd hfuel (Nat.not_lt_zero _)
  | succ n ih =>
    obtain ⟨t, ht, hend | ⟨hcyc, h, -, hcall⟩⟩ := step_inCall_ends_or_completes hc
    · refine ⟨1, by omega, ?_⟩
      rw [run_succ_of_next ht, run_zero, executeLoop_inCall hc ht, executeLoop_ended hend.call]
    · obtain ⟨k, hk, hrun⟩ := ih hcall (charge_cyc_lt_fuel hcyc hfuel h)
      exact ⟨k + 1, by omega, by rw [run_succ_of_next ht, hrun, executeLoop_inCall hc ht]⟩

/-- How an `execute(budget)` ends: the bounds of 40_engine.md R94. -/
abbrev State.EndsWithin (t : State) (budget : Nat) : Prop :=
  (∃ n : Int, t.result = some (.completed n) ∧ t.fault = none ∧ (budget : Int) ≤ n ∧ n ≤ budget + 5 ∧
    (budget = 0 → n = 0)) ∨
  ∃ (f : Fault) (n : Int), t.result = some (.faulted f n) ∧ t.fault = some f ∧ 1 ≤ n ∧ n ≤ budget

theorem State.Ends.endsWithin (hend : s.Ends c t) (hok : s.callOk c) (hzero : c.budget = 0 → c.cyc = 0) :
    t.EndsWithin c.budget := by
  obtain ⟨-, hfault, -, hlow, hhigh⟩ := hok
  obtain ⟨hcyc, hkept, hresult⟩ | ⟨hcyc, f, hheld, hresult⟩ := hend.outcome
  · exact .inl ⟨_, hresult, hkept.trans hfault, by omega, by omega, by omega⟩
  · exact .inr ⟨f, _, hresult, hheld, by omega, by omega⟩

/-- The loop, with fuel above the counter, ends the call within the bounds. -/
theorem executeLoop_endsWithin (hc : s.call = some c) (hok : s.callOk c) (hzero : c.budget = 0 → c.cyc = 0)
    (hfuel : c.cyc.toNat < fuel) :
    ∃ t, executeLoop fuel s = .next t ∧ t.call = none ∧ t.host = s.host ∧ t.EndsWithin c.budget := by
  induction fuel generalizing s c with
  | zero => exact absurd hfuel (Nat.not_lt_zero _)
  | succ n ih =>
    obtain ⟨t, ht, hend | ⟨hcyc, h, hC, hcall⟩⟩ := step_inCall_ends_or_completes hc
    · rw [executeLoop_inCall hc ht, executeLoop_ended hend.call]
      exact ⟨t, rfl, hend.call, hend.host, hend.endsWithin hok hzero⟩
    · have ⟨_, _, _, _, hhigh⟩ := hok
      obtain ⟨u, hu, hnone, hhost, hwithin⟩ := ih hcall (hC.callOk hok hcyc)
        (fun hb : c.budget = 0 => by omega) (charge_cyc_lt_fuel hcyc hfuel h)
      exact ⟨u, (executeLoop_inCall hc ht).trans hu, hnone, hhost.trans hC.host, hwithin⟩

end Loop

/-- Settles O53: the steps compute the loop, which ends within the bounds. -/
theorem executeReturnsWithinItsBounds : Obligations.ExecuteReturnsWithinItsBounds := by
  unfold Obligations.ExecuteReturnsWithinItsBounds
  intro s budget rest hi hinit hfault
  have hstart := executeStarts s budget rest hi hinit hfault
  have hfuel : (budget : Int).toNat < budget + 1 := Nat.lt_succ_self budget
  have hok := callOk_at_start (s := s.calling budget rest) hinit hfault rfl budget
  obtain ⟨k, hk, hrun⟩ := exists_run_eq_executeLoop (s := s.calling budget rest) rfl hfuel
  obtain ⟨t, ht, hnone, hhost, hwithin⟩ := executeLoop_endsWithin rfl hok (congrArg Nat.cast) hfuel
  exact ⟨k + 1, by omega, t, by rw [run_succ_of_next hstart, hrun, ht], hnone, hhost, hwithin⟩

/-- What `execute` starts is a call with the whole budget, unless it only answers the held fault. -/
theorem beginExecute_call {budget : Int} (h : beginExecute budget s = .next t) :
    t.call = s.call ∨ ∃ b : Nat, budget = b ∧ t.call = some { budget := b, cyc := b } := by
  obtain ⟨hcmd, -⟩ | ⟨b, hcmd, -, -, rfl⟩ | ⟨r, v, hcmd, -⟩ | ⟨w, hcmd, -⟩ | ⟨f, e, hcmd, -⟩ | ⟨m, -, rfl⟩ | ⟨r, rfl⟩ :=
    runCommand_cases (c := .execute budget) h
  · cases hcmd
  · exact .inr ⟨b, Command.execute.inj hcmd, rfl⟩
  · cases hcmd
  · cases hcmd
  · cases hcmd
  · exact .inl rfl
  · exact .inl rfl

/-- Settles O54: the first step is `beginExecute`, and the steps of the call it starts compute the loop. -/
theorem stepsComputeExecute : Obligations.StepsComputeExecute := by
  unfold Obligations.StepsComputeExecute
  intro s budget rest hi
  have hstep : step s = beginExecute budget { s with host := rest, result := none } := step_issues hi
  cases hb : beginExecute budget { s with host := rest, result := none } with
  | refused r => exact ⟨1, by omega, by simp only [run_succ, hstep, execute, hb]⟩
  | fault f => exact absurd hb (beginExecute_ne_fault _ _ _)
  | next t =>
    have hexecute : execute budget { s with host := rest, result := none } = executeLoop (budget.toNat + 1) t := by
      simp only [execute, hb]
    obtain hcall | ⟨b, rfl, hcall⟩ := beginExecute_call hb
    · refine ⟨1, by omega, ?_⟩
      rw [run_succ_of_next (hstep.trans hb), run_zero, hexecute, executeLoop_ended (hcall.trans hi.1)]
    · obtain ⟨k, hk, hrun⟩ := exists_run_eq_executeLoop (fuel := (b : Int).toNat + 1) hcall (Nat.lt_succ_self _)
      exact ⟨k + 1, by omega, by rw [run_succ_of_next (hstep.trans hb), hrun, hexecute]⟩

/-- With no command pending and no fault held, a machine between commands is idle (60_exceptions.md R162). -/
theorem run_idle (hc : s.call = none) (hh : s.host = []) (hf : s.fault = none) (k : Nat) : run k s = .next s := by
  have hstep : step s = .next s := by rw [step_idle hc hh, hf]
  induction k with
  | zero => rfl
  | succ n ih => rw [run_succ_of_next hstep, ih]

/-- A run goes on from the state its first steps reach. -/
theorem run_add_of_next {j : Nat} (h : run j s = .next t) (k : Nat) : run (j + k) s = run k t := by
  induction j generalizing s with
  | zero => rw [Nat.zero_add, Host.Outcome.next.inj h]
  | succ n ih =>
    rw [Nat.add_right_comm]
    rw [run_succ] at h ⊢
    cases hs : step s with
    | next u => exact ih (by rwa [hs] at h)
    | fault f => rw [hs] at h; cases h
    | refused r => rw [hs] at h; cases h

/-- Settles O55: within its bounds the call ends, not in a fault, and then the machine is idle. -/
theorem faultFreeCallCompletes : Obligations.FaultFreeCallCompletes := by
  unfold Obligations.FaultFreeCallCompletes
  intro s budget hi hinit hfree
  have fault_none {k : Nat} {t : State} (hk : k ≤ budget + 2) (ht : run k s = .next t) : t.fault = none := by
    obtain ⟨u, hu, hnone⟩ := hfree k hk
    exact Host.Outcome.next.inj (ht.symm.trans hu) ▸ hnone
  have hfault : s.fault = none := fault_none (Nat.zero_le _) (run_zero s)
  obtain ⟨k, hk, t, ht, hcall, hhost, houtcome⟩ := executeReturnsWithinItsBounds s budget [] hi hinit hfault
  have hidle := fault_none hk ht
  obtain ⟨n, hresult, -⟩ | ⟨f, n, -, hheld, -⟩ := houtcome
  · obtain ⟨j, hj⟩ := Nat.exists_eq_add_of_le hk
    exact ⟨t, n, by rw [hj, run_add_of_next ht, run_idle hcall hhost hidle], hcall, hresult⟩
  · cases hidle.symm.trans hheld

end Sys2Proof.Machine
end

section
/-!
PROOFS. The Load-Accumulator family of 41_load_accumulator.md: what `exec` of each form answers, written as one
`loadA`, and the statements about its effect, its step and its frame, which follow from that.
-/

namespace Sys2Proof.Machine

variable {s t : State} {c : Call} {i : Instr}

/-! ### The load of A -/

/-- The flag unit writes Z and N by their meaning (40_engine.md R90). -/
theorem setZN_eq_loaded (v : Byte) (f : Flags) : setZN v f = f.loaded v := flagUnitWritesZAndN v f

theorem loadA_eq_loaded (v : Byte) (s : State) : loadA v s = { s with a := v, flags := s.flags.loaded v } := by
  rw [loadA_eq, setZN_eq_loaded]
  rfl

theorem byteAt_eaZp (zp : Byte) (s : State) : s.byteAt (eaZp zp) = s.mem.get zp.toNat := by
  rw [State.byteAt, eaZp, zext16_toNat]

/-- The indexed address is a byte, so its sum wraps modulo 256 (40_engine.md R88). -/
theorem byteAt_indexed (zp : Byte) (s : State) :
    s.byteAt (zext16 (zp + s.x)) = s.mem.get ((zp.toNat + s.x.toNat) % 256) := by
  rw [State.byteAt, zext16_toNat, BitVec.toNat_add]

/-! ### What each form answers -/

theorem exec_ldaImm (imm8 : Byte) (s : State) : exec (.ldaImm imm8) s = .next (loadA imm8 s) := rfl

theorem exec_ldaZp (zp : Byte) (s : State) :
    exec (.ldaZp zp) s = .next (loadA (s.mem.get zp.toNat) (s.charge 1)) := by
  rw [← byteAt_eaZp]
  rfl

/-- The index computation and the read charge a cycle each. -/
theorem exec_ldaZpx (zp : Byte) (s : State) :
    exec (.ldaZpx zp) s = .next (loadA (s.mem.get ((zp.toNat + s.x.toNat) % 256)) (s.charge 2)) := by
  rw [← byteAt_indexed, ← State.charge_charge s 1 1]
  rfl

/-- Settles O15, from `exec_ldaImm`. -/
theorem ldaImmediateEffect : Obligations.LdaImmediateEffect := by
  unfold Obligations.LdaImmediateEffect
  intro imm8 s
  rw [exec_ldaImm, loadA_eq_loaded]

/-- Settles O16, from `exec_ldaZp`. -/
theorem ldaZeroPageEffect : Obligations.LdaZeroPageEffect := by
  unfold Obligations.LdaZeroPageEffect
  intro zp s
  rw [exec_ldaZp, loadA_eq_loaded]
  rfl

/-- Settles O17, from `exec_ldaZpx`. -/
theorem ldaZeroPageXEffect : Obligations.LdaZeroPageXEffect := by
  unfold Obligations.LdaZeroPageXEffect
  intro zp s
  rw [exec_ldaZpx, loadA_eq_loaded]
  rfl

/-! ### The step of each form -/

/-- The step of a two-byte instruction whose meaning loads `v` and has charged the call `k` cycles, its two fetched
bytes included. -/
theorem step_of_loadA {rest : List Byte} {v : Byte} {k : Nat} (hs : s.Starts c)
    (hd : decode (s.bytesFrom s.pc 3) = .ok (i, rest)) (hlen : (encode i).length = 2)
    (hexec : exec i ((s.setPc (s.pc + 2)).charge 2) = .next (loadA v ((s.setPc (s.pc + 2)).charge k))) :
    step s = .next { s with
      a := v, flags := s.flags.loaded v, pc := s.pc + 2, call := some { c with cyc := c.cyc - k } } := by
  obtain ⟨hc, hcyc⟩ := hs
  calc step s
      = exec i ((s.setPc (s.pc + 2)).charge 2) := by
          rw [step_running s hc hcyc, loopBody_of_decode hd, hlen]
          rfl
    _ = .next (loadA v ((s.setPc (s.pc + 2)).charge k)) := hexec
    _ = .next { s with
          a := v, flags := s.flags.loaded v, pc := s.pc + 2, call := some { c with cyc := c.cyc - k } } := by
      rw [loadA_eq_loaded, State.charge, State.setPc_call, hc]
      rfl

/-- Settles O18: the two fetches are all it charges. -/
theorem ldaImmediateStep : Obligations.LdaImmediateStep := by
  unfold Obligations.LdaImmediateStep
  intro s c hs hop
  have hhandler : decodeOpcode (s.byteAt s.pc) = some .ldaImm := (decodeOpcode_eq_some _ _).mpr hop
  exact step_of_loadA hs (decode_cons_of_some hhandler) rfl (exec_ldaImm _ _)

/-- Settles O19: the read charges one cycle beyond the two fetches. -/
theorem ldaZeroPageStep : Obligations.LdaZeroPageStep := by
  unfold Obligations.LdaZeroPageStep
  intro s c hs hop
  have hhandler : decodeOpcode (s.byteAt s.pc) = some .ldaZp := (decodeOpcode_eq_some _ _).mpr hop
  refine step_of_loadA hs (decode_cons_of_some hhandler) rfl ?_
  rw [exec_ldaZp, State.charge_charge]
  rfl

/-- Settles O20: the index computation and the read charge two cycles beyond the two fetches. -/
theorem ldaZeroPageXStep : Obligations.LdaZeroPageXStep := by
  unfold Obligations.LdaZeroPageXStep
  intro s c hs hop
  have hhandler : decodeOpcode (s.byteAt s.pc) = some .ldaZpx := (decodeOpcode_eq_some _ _).mpr hop
  refine step_of_loadA hs (decode_cons_of_some hhandler) rfl ?_
  rw [exec_ldaZpx, State.charge_charge]
  rfl

/-! ### The frame -/

/-- The cycles an instruction's meaning charges beyond its fetched bytes (41_load_accumulator.md R113,
42_subroutine.md R133). -/
def ownCycles : Instr → Nat
  | .ldaImm _ => 0
  | .ldaZp _ => 1
  | .ldaZpx _ => 2
  | .jsr _ => 3

/-- The call is charged those cycles, and is otherwise left alone. -/
theorem exec_call (h : exec i s = .next t) : t.call = s.call.map (Call.charge (ownCycles i)) := by
  cases i with
  | ldaImm imm8 =>
    obtain rfl := Host.Outcome.next.inj ((exec_ldaImm imm8 s).symm.trans h)
    exact (map_charge_zero s.call).symm
  | ldaZp zp =>
    obtain rfl := Host.Outcome.next.inj ((exec_ldaZp zp s).symm.trans h)
    rfl
  | ldaZpx zp =>
    obtain rfl := Host.Outcome.next.inj ((exec_ldaZpx zp s).symm.trans h)
    rfl
  | jsr target =>
    obtain rfl : jsrNext target s = t := Host.Outcome.next.inj h
    have hpush : (pushReturn (s.pc - 1) s).call = s.call.map (Call.charge 2) :=
      congrArg State.call (pushReturn_withCall (s.pc - 1) s s.call)
    rw [jsrNext, State.setPc_call, State.charge_call, hpush, map_charge_charge]
    rfl

/-- Every form of LDA is one load of A, apart from what it charges the call. -/
theorem exec_lda {operand : Byte} (hi : i = .ldaImm operand ∨ i = .ldaZp operand ∨ i = .ldaZpx operand)
    (h : exec i s = .next t) : ∃ v q, t = loadA v { s with call := q } := by
  obtain rfl | rfl | rfl := hi
  · exact ⟨_, _, Host.Outcome.next.inj (h.symm.trans (exec_ldaImm operand s))⟩
  · exact ⟨_, _, Host.Outcome.next.inj (h.symm.trans (exec_ldaZp operand s))⟩
  · exact ⟨_, _, Host.Outcome.next.inj (h.symm.trans (exec_ldaZpx operand s))⟩

/-- Settles O21: `exec_call` says what happens to the call, and a load of A leaves the rest. -/
theorem ldaFrame : Obligations.LdaFrame := by
  unfold Obligations.LdaFrame
  intro i op s t hi h
  have hcall := exec_call h
  obtain ⟨v, q, rfl⟩ := exec_lda hi h
  refine ⟨rfl, rfl, rfl, rfl, rfl, rfl, rfl, rfl, rfl, rfl, rfl, rfl, rfl, rfl, ?_, fun _ => rfl⟩
  obtain rfl | rfl | rfl := hi
  · exact hcall
  · exact hcall
  · exact hcall

end Sys2Proof.Machine
end

section
/-!
PROOFS. Subroutine linkage of 42_subroutine.md: where a push leaves the two bytes of the return address under either
stack convention, and the statements about the push, about what JSR answers, and about its step.
-/

namespace Sys2Proof.Machine

variable {s : State}

/-- Two writes at different addresses: which comes first does not matter. -/
theorem Memory.get_set_set (m : Memory) {a b : Nat} (hab : a ≠ b) (c : Nat) (v w : Byte) :
    ((m.set a v).set b w).get c = if c = a then v else if c = b then w else m.get c := by
  rw [Memory.get_set, Memory.get_set]
  by_cases hc : c = a
  · rw [if_pos hc, if_pos hc, if_neg (hc ▸ hab)]
  · rw [if_neg hc, if_neg hc]

/-! ### Where a push stores, and what it leaves -/

/-- Where the high byte of a return address is pushed (42_subroutine.md R131, R132). -/
def pushHiAt : JsrStack → Byte → Word
  | .descending, sp => stackAddr sp
  | .legacy, sp => zext16 sp + 1

/-- Where its low byte is pushed. -/
def pushLoAt : JsrStack → Byte → Word
  | .descending, sp => stackAddr (sp - 1)
  | .legacy, sp => zext16 sp

/-- What the push leaves in SP. -/
def pushedSp : JsrStack → Byte → Byte
  | .descending, sp => sp - 2
  | .legacy, sp => sp

/-- The word at the last byte of page 0 reaches into page 1 and does not wrap. -/
@[simp] theorem zext16_succ_toNat (b : Byte) : (zext16 b + 1).toNat = b.toNat + 1 := by
  have hb := b.isLt
  rw [BitVec.toNat_add, zext16_toNat]
  change (b.toNat + 1) % 65536 = _
  omega

theorem pushHiAt_toNat_ne_pushLoAt (j : JsrStack) (sp : Byte) : (pushHiAt j sp).toNat ≠ (pushLoAt j sp).toNat := by
  cases j with
  | descending =>
    rw [pushHiAt, pushLoAt, stackAddr_toNat, stackAddr_toNat]
    bv_omega
  | legacy =>
    rw [pushHiAt, pushLoAt, zext16_succ_toNat, zext16_toNat]
    omega

theorem pushReturn_of_legacy (h : s.cfg.jsrStack = .legacy) (ret : Word) :
    pushReturn ret s = pushReturnLegacy ret s := by
  rw [pushReturn, h]

/-- Everything a push does but for the bytes it stores. -/
theorem pushReturn_eq (ret : Word) (s : State) :
    pushReturn ret s =
      ((s.setMem (pushReturn ret s).mem).setSp (pushedSp s.cfg.jsrStack s.sp)).charge 2 := by
  cases h : s.cfg.jsrStack with
  | descending => rw [pushReturn_of_descending h, pushReturnDescending_eq]; rfl
  | legacy => rw [pushReturn_of_legacy h, pushReturnLegacy_eq]; rfl

theorem pushReturn_sp (ret : Word) (s : State) : (pushReturn ret s).sp = pushedSp s.cfg.jsrStack s.sp := by
  rw [pushReturn_eq]
  rfl

theorem pushReturn_cfg (ret : Word) (s : State) : (pushReturn ret s).cfg = s.cfg := by
  rw [pushReturn_eq]
  rfl

theorem pushReturn_call (ret : Word) (s : State) : (pushReturn ret s).call = s.call.map (Call.charge 2) := by
  rw [pushReturn_eq]
  rfl

/-- The bytes it stores: the two of the return address, and no other (42_subroutine.md R133). -/
theorem pushReturn_get (ret : Word) (s : State) (addr : Nat) :
    (pushReturn ret s).mem.get addr =
      if addr = (pushHiAt s.cfg.jsrStack s.sp).toNat then hi8 ret
      else if addr = (pushLoAt s.cfg.jsrStack s.sp).toNat then lo8 ret
      else s.mem.get addr := by
  have hne := pushHiAt_toNat_ne_pushLoAt s.cfg.jsrStack s.sp
  cases h : s.cfg.jsrStack with
  | descending =>
    rw [h] at hne
    rw [pushReturn_of_descending h, pushReturnDescending_eq]
    exact Memory.get_set_set s.mem hne addr _ _
  | legacy =>
    rw [pushReturn_of_legacy h, pushReturnLegacy_eq, State.charge_mem, State.setMem_mem, Memory.get_set,
      Memory.get_set]
    rfl

theorem pushReturn_get_hi (ret : Word) (s : State) :
    (pushReturn ret s).mem.get (pushHiAt s.cfg.jsrStack s.sp).toNat = hi8 ret := by
  rw [pushReturn_get, if_pos rfl]

theorem pushReturn_get_lo (ret : Word) (s : State) :
    (pushReturn ret s).mem.get (pushLoAt s.cfg.jsrStack s.sp).toNat = lo8 ret := by
  rw [pushReturn_get, if_neg (pushHiAt_toNat_ne_pushLoAt _ _).symm, if_pos rfl]

theorem pushReturn_get_other (ret : Word) (s : State) (addr : Nat)
    (hhi : addr ≠ (pushHiAt s.cfg.jsrStack s.sp).toNat) (hlo : addr ≠ (pushLoAt s.cfg.jsrStack s.sp).toNat) :
    (pushReturn ret s).mem.get addr = s.mem.get addr := by
  rw [pushReturn_get, if_neg hhi, if_neg hlo]

/-- Settles O29: the two addresses are SP and SP - 1 in page 1, where SP - 1 wraps only from 0. -/
theorem descendingPush : Obligations.DescendingPush := by
  unfold Obligations.DescendingPush
  intro ret s h
  have hhi := pushReturn_get_hi ret s
  have hlo := pushReturn_get_lo ret s
  have hother := pushReturn_get_other ret s
  simp only [h, pushHiAt, pushLoAt, stackAddr_toNat] at hhi hlo hother
  rw [pushReturn_sp, h, pushReturn_call]
  refine ⟨fun hsp => ⟨?_, hhi⟩, fun hsp => ?_, ?_, rfl, fun addr ha => hother addr ?_ ?_⟩
  · have hlow : 0x0100 + s.sp.toNat - 1 = 256 + (s.sp - 1).toNat := by bv_omega
    rw [hlow, hlo]
  · rw [hsp] at hhi hlo ⊢
    exact ⟨hhi, hlo, rfl⟩
  · simp only [pushedSp]
    bv_omega
  · have := s.sp.isLt
    omega
  · have := (s.sp - 1).isLt
    omega

/-- Settles O30: SP stays, so a second push stores at the same two addresses. -/
theorem legacyPush : Obligations.LegacyPush := by
  unfold Obligations.LegacyPush
  intro ret ret' s h
  have hhi := pushReturn_get_hi ret s
  have hlo := pushReturn_get_lo ret s
  have hother := pushReturn_get_other ret s
  simp only [h, pushHiAt, pushLoAt, zext16_toNat, zext16_succ_toNat] at hhi hlo hother
  have hsp : (pushReturn ret s).sp = s.sp := by rw [pushReturn_sp, h]; rfl
  refine ⟨hlo, hhi, hsp, pushReturn_call ret s, fun addr ha => hother addr ?_ ?_, fun addr => ?_⟩
  · have := s.sp.isLt
    omega
  · have := s.sp.isLt
    omega
  · rw [pushReturn_get ret', pushReturn_get ret', pushReturn_get ret, pushReturn_cfg, hsp]
    split_ifs <;> rfl

/-! ### What JSR answers -/

theorem exec_jsr (target : Word) (s : State) : exec (.jsr target) s = .next (jsrNext target s) := rfl

theorem jsrNext_mem (target : Word) (s : State) : (jsrNext target s).mem = (pushReturn (s.pc - 1) s).mem := rfl

/-- Everything JSR's meaning does but for the bytes it stores: the push, and a cycle for the jump. -/
theorem jsrNext_eq (target : Word) (s : State) :
    jsrNext target s =
      (((s.setMem (jsrNext target s).mem).setSp (pushedSp s.cfg.jsrStack s.sp)).setPc target).charge 3 := by
  rw [jsrNext_mem, jsrNext, pushReturn_eq, State.charge_charge]
  rfl

/-- Settles O24, from `pushReturnDescending_eq`. -/
theorem jsrDescendingEffect : Obligations.JsrDescendingEffect := by
  unfold Obligations.JsrDescendingEffect
  intro target s h
  rw [exec_jsr, jsrNext_eq, jsrNext_mem, pushReturn_of_descending h, pushReturnDescending_eq, h, stackAddr_toNat,
    stackAddr_toNat]
  rfl

/-- Settles O25, from `pushReturnLegacy_eq`. -/
theorem jsrLegacyEffect : Obligations.JsrLegacyEffect := by
  unfold Obligations.JsrLegacyEffect
  intro target s h
  rw [exec_jsr, jsrNext_eq, jsrNext_mem, pushReturn_of_legacy h, pushReturnLegacy_eq, h, zext16_toNat,
    zext16_succ_toNat]
  rfl

/-- Settles O28: `jsrNext_eq` for all but memory, and memory is that after the push. -/
theorem jsrFrame : Obligations.JsrFrame := by
  unfold Obligations.JsrFrame
  intro target s t h
  obtain rfl := Host.Outcome.next.inj ((exec_jsr target s).symm.trans h)
  have hother := pushReturn_get_other (s.pc - 1) s
  rw [← jsrNext_mem target] at hother
  rw [jsrNext_eq]
  refine ⟨rfl, rfl, rfl, rfl, rfl, rfl, rfl, rfl, rfl, rfl, fun hd => ?_, fun hl => ?_⟩
  · rw [hd] at hother ⊢
    exact ⟨rfl, hother⟩
  · rw [hl] at hother ⊢
    exact ⟨rfl, fun addr hlo hhi => hother addr hhi hlo⟩

/-- Off the addresses either convention stores to, a push leaves memory as it was. -/
theorem pushReturn_get_off (ret : Word) (s : State) {addr : Nat} (h₁ : addr ≠ (stackAddr s.sp).toNat)
    (h₂ : addr ≠ (stackAddr (s.sp - 1)).toNat) (h₃ : addr ≠ (zext16 s.sp).toNat)
    (h₄ : addr ≠ (zext16 s.sp + 1).toNat) : (pushReturn ret s).mem.get addr = s.mem.get addr := by
  have hother := pushReturn_get_other ret s addr
  cases h : s.cfg.jsrStack with
  | descending => rw [h] at hother; exact hother h₁ h₂
  | legacy => rw [h] at hother; exact hother h₄ h₃

/-- Settles O31: only SP and the bytes of the push depend on the configuration. -/
theorem stackConventionsAgreeElsewhere : Obligations.StackConventionsAgreeElsewhere := by
  unfold Obligations.StackConventionsAgreeElsewhere
  intro target s p q
  refine ⟨_, _, exec_jsr target _, exec_jsr target _, ?_, fun addr h₁ h₂ h₃ h₄ => ?_⟩
  · rw [jsrNext_eq, jsrNext_eq target { s with cfg := q }]
    rfl
  · rw [jsrNext_mem, jsrNext_mem]
    exact (pushReturn_get_off _ { s with cfg := p } h₁ h₂ h₃ h₄).trans
      (pushReturn_get_off _ { s with cfg := q } h₁ h₂ h₃ h₄).symm

/-! ### The step of JSR -/

/-- The push does not read PC. -/
theorem pushReturn_setPc (ret w : Word) (s : State) : pushReturn ret (s.setPc w) = (pushReturn ret s).setPc w := by
  unfold pushReturn
  rw [State.setPc_cfg]
  cases s.cfg.jsrStack <;> rfl

/-- JSR after its three bytes are fetched: it pushes the address of the last of them (42_subroutine.md R130), and
has charged the fetches, the push and the jump. -/
theorem jsrNext_fetched (target : Word) (s : State) :
    jsrNext target ((s.setPc (s.pc + 3)).charge 3) =
      { pushReturn (s.pc + 2) s with pc := target, call := s.call.map (Call.charge 6) } := by
  have hret : s.pc + 3 - 1 = s.pc + 2 := by rw [add_sub_assoc]; rfl
  calc jsrNext target ((s.setPc (s.pc + 3)).charge 3)
      = ((pushReturn (s.pc + 3 - 1) { s.setPc (s.pc + 3) with call := s.call.map (Call.charge 3) }).charge 1).setPc
          target := rfl
    _ = { pushReturn (s.pc + 2) s with
          pc := target,
          call := ((s.call.map (Call.charge 3)).map (Call.charge 2)).map (Call.charge 1) } := by
        rw [pushReturn_withCall, pushReturn_setPc, hret]
        rfl
    _ = { pushReturn (s.pc + 2) s with pc := target, call := s.call.map (Call.charge 6) } := by
        rw [map_charge_charge, map_charge_charge]

/-- Settles O26, from `step_jsr` and `jsrNext_fetched`. -/
theorem jsrStep : Obligations.JsrStep := by
  unfold Obligations.JsrStep
  intro s c hs hop
  rw [step_jsr hs hop, jsrNext_fetched, hs.1, ← mkWord_eq_ofNat]
  rfl

/-- Settles O27: the step is `jsrStep`, and the push it takes stores the two bytes at the addresses of its
convention. -/
theorem jsrTotals : Obligations.JsrTotals := by
  unfold Obligations.JsrTotals
  intro s c hs hop
  have hstep := jsrStep s c hs hop
  rw [pushReturn_eq, ← mkWord_eq_ofNat] at hstep
  refine ⟨_, (pushHiAt s.cfg.jsrStack s.sp).toNat, (pushLoAt s.cfg.jsrStack s.sp).toNat, hstep, rfl, mkWord_toNat _ _,
    rfl, rfl, rfl, rfl, ?_, pushReturn_get (s.pc + 2) s⟩
  cases s.cfg.jsrStack with
  | descending => exact ⟨stackAddr_toNat _, stackAddr_toNat _, rfl⟩
  | legacy => exact ⟨zext16_succ_toNat _, zext16_toNat _, rfl⟩

end Sys2Proof.Machine
end

section
/-!
PROOFS. The faults of 60_exceptions.md: a started instruction completes or takes its fault, and an idle CORE stays as it
is.
-/

namespace Sys2Proof.Machine

/-- Settles O8, from `step_of_no_handler`: the byte that cannot be decoded has been charged when the call ends. -/
theorem unrecognizedOpcodeFaults : Obligations.UnrecognizedOpcodeFaults := by
  unfold Obligations.UnrecognizedOpcodeFaults
  intro s c hs hop
  have hconsumed : (c.budget : Int) - c.cyc + 1 = c.budget - (c.cyc - 1) := by omega
  rw [hconsumed]
  exact step_of_no_handler hs ((decodeOpcode_eq_none _).mpr hop)

/-- Settles O9, from `step_of_handler` for the four opcodes and `step_of_no_handler` for the others. -/
theorem startedInstructionCompletesOrFaults : Obligations.StartedInstructionCompletesOrFaults := by
  unfold Obligations.StartedInstructionCompletesOrFaults
  intro s c hs
  have hnone : decodeOpcode (s.byteAt s.pc) = none ↔ s.byteAt s.pc ∉ [0xA9#8, 0xA5#8, 0xB5#8, 0x20#8] :=
    decodeOpcode_eq_none _
  cases hop : decodeOpcode (s.byteAt s.pc) with
  | none =>
    refine ⟨_, step_of_no_handler hs hop, ?_⟩
    rw [if_neg (hnone.mp hop)]
    exact ⟨rfl, rfl⟩
  | some h =>
    obtain ⟨t, ht, hC⟩ := step_of_handler hs hop
    have hmem := Decidable.not_not.mp (mt hnone.mpr (by simp [hop]))
    refine ⟨t, ht, ?_⟩
    rw [if_pos hmem]
    exact ⟨by rw [hC.call, hs.1]; rfl, hC.fault⟩

/-- Settles O50: it is `run_idle`. -/
theorem idleCoreStays : Obligations.IdleCoreStays := fun _ => run_idle

end Sys2Proof.Machine
end

section
/-!
PROOFS. The reset of 70_reset_and_hazards.md: the state it leaves, and the fault of an `execute` right after it.
-/

namespace Sys2Proof.Machine

variable {s : State} {rest : List Command}

/-- Settles O42: reset unlists every address, and every other value stands in `State.resetAt`. -/
theorem resetState : Obligations.ResetState :=
  ⟨rfl, rfl, rfl, rfl, rfl, rfl, Memory.get_zero, rfl, rfl, rfl⟩

/-- Settles O51: the memory of reset is canonical, and there is no call in progress and no fault held. -/
theorem resetMeetsInv : Obligations.ResetMeetsInv := by
  unfold Obligations.ResetMeetsInv
  intro cfg
  refine ⟨Memory.wf_zero, ?_, ?_⟩
  · rintro c ⟨⟩
  · rintro f ⟨⟩

/-- The reset command leaves the reset state under the configuration it found (70_reset_and_hazards.md R180). -/
theorem step_reset (h : s.Issues .reset rest) :
    step s = .next { State.resetAt s.cfg with host := rest, result := some .done } :=
  step_issues h

/-- Settles O41, from `step_reset`. -/
theorem resetCommand : Obligations.ResetCommand := by
  unfold Obligations.ResetCommand
  intro s rest h
  exact ⟨_, step_reset h, rfl, rfl, rfl, rfl, rfl, rfl, Memory.get_zero, rfl, rfl, rfl, rfl, rfl, rfl⟩

/-- The byte 0x00, which memory reads as after reset, is no opcode (70_reset_and_hazards.md R181). -/
theorem decodeOpcode_unlistedByte : decodeOpcode unlistedByte = none := rfl

/-- Settles O43: the three steps are those of `step_reset`, `executeStarts` and `step_of_no_handler`, and the call has
been charged the one byte it has fetched. -/
theorem resetThenExecuteFaultsAtTheResetPc : Obligations.ResetThenExecuteFaultsAtTheResetPc := by
  unfold Obligations.ResetThenExecuteFaultsAtTheResetPc
  intro s budget rest hbudget hi
  have hreset := step_reset hi
  have hexecute := executeStarts { State.resetAt s.cfg with host := .execute budget :: rest, result := some .done }
    budget rest ⟨rfl, rfl⟩ rfl rfl
  have hfault := step_of_no_handler (s := (State.resetAt s.cfg).calling budget rest)
    ⟨rfl, Int.natCast_pos.mpr hbudget⟩ decodeOpcode_unlistedByte
  have hrun := (run_succ_of_next hreset 2).trans ((run_succ_of_next hexecute 1).trans (run_succ_of_next hfault 0))
  have hconsumed : (budget : Int) - (budget - 1) = 1 := by omega
  exact ⟨_, _, run_succ_of_next hreset 0, rfl, Memory.get_zero _, Memory.get_zero _, hrun, rfl,
    congrArg (some ∘ Result.faulted (.unrecognizedInstruction 0x00 0xFFFC)) hconsumed⟩

end Sys2Proof.Machine
end
